-- ==== Sys2Proof/Word.lean ====
section
/-! DEFINITION. The widths of the Mini-AES core (00_scope.md R10, R15): nibble, key-schedule word, block, bus address. -/

namespace Sys2Proof

/-- A nibble: 4 bits, an element of GF(2^4) (R10 NIBBLE_W, R15). -/
abbrev Nibble := BitVec 4

/-- A key-schedule word: an ordered pair of nibbles, 8 bits (R10 WORD_W; 90_conflicts.md C2). -/
abbrev KWord := BitVec 8

/-- A block: 16 bits. Also a key, a round key, a command word, and the data of one bus access (R10 BLOCK_W, BUS_DATA_W). -/
abbrev Block := BitVec 16

/-- A host-bus word address: 10 bits (R10 BUS_ADDR_W, R34). -/
abbrev BusAddr := BitVec 10

end Sys2Proof
end

