-- ==== Sys2Proof/Config.lean ====
section
/-! DEFINITION. What the spec leaves OPEN or unspecified, as constants with no body: no proof can see which value they have
(93_implementation_defined.md I1 to I5). -/

namespace Sys2Proof

/-- An S-box: a permutation of the nibbles, with its inverse. 44_round_transform.md R77: SBOX is "required to be a
permutation", INV_SBOX "its exact inverse permutation"; a table that is no permutation is not a value of this type (I1). -/
abbrev SBox := Equiv.Perm Nibble

/-- SBOX: OPEN (R10, R77, I1). DESIGN CHOICE, safe: a free value (log 1). -/
opaque Config.sbox : SBox

/-- The `k`-th answer of the external random source: `draw16()` of 45_chaining_modes.md R103, "any of the 65536 values, under
no law" (I3). DESIGN CHOICE, safe: a free value (log 2). -/
opaque Config.draw16 : Nat → Block

/-- What a host read of IV, DOUT, W, RK or OUT returns while BUSY = 1, made as the `k`-th host event:
70_reset_and_hazards.md R140, "a draw per read" (I4). DESIGN CHOICE, safe: a free value (log 3). -/
opaque Config.busyRead : Nat → Block

/-- What the buffer word at bus address `a` holds after the `r`-th reset, until it is written: 10_state.md R26, R27,
"unspecified" (I5). DESIGN CHOICE, safe: a free value (log 4). -/
opaque Config.powerOnWord (r a : Nat) : Block

/-- Whether a pending command completes before the `k`-th host event: LAT(cmd) is OPEN and only the order of events matters
(46_control.md R110, 70_reset_and_hazards.md R144, I2). DESIGN CHOICE, safe: a free value (log 5). -/
opaque Config.completesFirst : Nat → Bool

end Sys2Proof
end

