-- ==== Sys2Proof/Machine/State.lean ====
section
/-! DEFINITION. The machine's state as plain data (10_state.md), its reset (70_reset_and_hazards.md R135), and the reasons a
step can stop (there are none). -/

namespace Sys2Proof.Machine

/-- STATUS (10_state.md R18): its three fields. The other bits have no storage and read 0 (`Status.word`). -/
structure Status where
  /-- Bit 0: 1 from the issue of a command to its completion. -/
  busy : Bool
  /-- Bit 1: 1 when the last issued command has completed. -/
  done : Bool
  /-- Bits 7:4: outcome of the last completed command (60_exceptions.md R121). -/
  err : BitVec 4
deriving DecidableEq, Repr

/-- The buffer words written since the last reset, as (bus word address, 16-bit word) cells: IN[i] is address 0x100 + i,
OUT[i] is 0x200 + i (10_state.md R16). Canonical form: `Memory.wf`. A word is the bus's smallest unit: there are no bytes and
no byte order (20_memory.md R34, R42; log 8). -/
abbrev Memory := List (Nat × Block)

/-- What reaches the core from outside, one at a time in the host's program order (20_memory.md R44): the host's bus
accesses (R38), in the notation of 30_encoding.md R56, and the reset input (70_reset_and_hazards.md R135). -/
inductive HostEvent where
  /-- `WR`: `MemWrite(a, 1, v)`. -/
  | write (a : BusAddr) (v : Block)
  /-- `WR` of a value the program noted: the one read `k` reads ago (0: the latest). -/
  | writeNoted (a : BusAddr) (k : Nat)
  /-- `RD`: `MemRead(a, 1)`; "the program notes the value read". -/
  | read (a : BusAddr)
  /-- `WAIT`: poll STATUS until BUSY = 0. -/
  | wait
  /-- The reset input is asserted. -/
  | reset
deriving DecidableEq, Repr

/-- The machine. The first group is the spec's own state (10_state.md R16); RK0..RK3 are a view of `w` (R25) and have no field.
The second group is the model's own bookkeeping (logs 2 to 6, 10). -/
structure State where
  /-- CMD, address 0x000 (R17). While BUSY = 1 it is the pending command word (R31). -/
  cmd : Block
  /-- STATUS, address 0x001 (R18). -/
  status : Status
  /-- KEY, address 0x002 (R20). -/
  key : Block
  /-- IV, address 0x003 (R21). -/
  iv : Block
  /-- DIN, address 0x004 (R22). -/
  din : Block
  /-- DOUT, address 0x005 (R23). -/
  dout : Block
  /-- W0..W7, addresses 0x008 to 0x00F (R24). -/
  w : Vector KWord 8
  /-- IN[0..255] and OUT[0..255], addresses 0x100 to 0x2FF (R26, R27). -/
  mem : Memory
  /-- MODEL's own: what the host and the reset input will still do, in order (log 6). -/
  host : List HostEvent
  /-- MODEL's own: what the host has read, as (address, value), latest first (log 6). -/
  noted : List (BusAddr × Block)
  /-- MODEL's own: host events served so far; indexes `Config.busyRead` and `Config.completesFirst` (logs 3, 5). -/
  busEvents : Nat
  /-- MODEL's own: 16-bit values drawn from the random source so far; indexes `Config.draw16` (log 2). -/
  ivDraws : Nat
  /-- MODEL's own: resets since power-on; indexes `Config.powerOnWord` (log 4). -/
  resets : Nat
deriving DecidableEq, Repr

/-- Reasons a step can stop with a fault: none. 93_implementation_defined.md: "No behaviour of the core is `fault` or
`stuck`"; errors are values in STATUS.ERR (60_exceptions.md R126). Nothing raises one; that is neither safe nor unsafe (log 13). -/
inductive Fault where
deriving DecidableEq, Repr

/-- Reasons a step can be refused. -/
inductive Refusal where
  /-- Raised only by an arm of `exec` whose instruction has no meaning yet; safe (the machine stops). No arm raises it. -/
  | notModelled (mnemonic : String)
deriving DecidableEq, Repr

/-- The machine right after reset at power-on (70_reset_and_hazards.md R135, 10_state.md R16): every register 0, no command
pending, no buffer word written. The last five fields are the model's own: DESIGN CHOICE, empty and 0 (log 10). -/
def State.reset : State where
  cmd := 0x0000
  status := { busy := false, done := false, err := 0 }
  key := 0x0000
  iv := 0x0000
  din := 0x0000
  dout := 0x0000
  w := #v[0x00, 0x00, 0x00, 0x00, 0x00, 0x00, 0x00, 0x00]
  mem := []
  host := []
  noted := []
  busEvents := 0
  ivDraws := 0
  resets := 0

end Sys2Proof.Machine
end

