-- ==== Sys2Proof/Machine/Flags.lean ====
section
/-! DEFINITION. The only flags of the core: the STATUS fields BUSY, DONE and ERR (10_state.md R18, R30), and the error codes
(60_exceptions.md R121). -/

namespace Sys2Proof.Machine

/-- The ERR codes of R121 that have a name. FORMAT is never produced by the core; codes 4 to 15 are reserved. -/
inductive ErrCode where
  | none
  | format
  | align
  | illegal
deriving DecidableEq, Repr

/-- R121: 0 NONE, 1 FORMAT, 2 ALIGN, 3 ILLEGAL. -/
def ErrCode.code : ErrCode → BitVec 4
  | .none => 0
  | .format => 1
  | .align => 2
  | .illegal => 3

/-- What a host reads at address 0x001 (R18): bit 0 BUSY, bit 1 DONE, bits 7:4 ERR, every other bit 0. -/
def Status.word (st : Status) : Block :=
  0#8 ++ st.err ++ 0#2 ++ BitVec.ofBool st.done ++ BitVec.ofBool st.busy

/-- STATUS while a command is pending (46_control.md R107): BUSY <- 1, DONE <- 0, ERR <- 0. -/
def Status.pending : Status := { busy := true, done := false, err := 0 }

/-- STATUS after a completion with outcome `e` (46_control.md R109): ERR <- e, BUSY <- 0, DONE <- 1. -/
def Status.completed (e : ErrCode) : Status := { busy := false, done := true, err := e.code }

/-- The status values of 10_state.md R19: after reset, while pending, after a completion with ERR in 0, 2, 3. -/
def Status.legal (st : Status) : Bool :=
  st == { busy := false, done := false, err := 0 } || st == Status.pending || st == Status.completed .none ||
    st == Status.completed .align || st == Status.completed .illegal

end Sys2Proof.Machine
end

