-- ==== Sys2Proof/Machine/Ops.lean ====
section
/-! DEFINITION. The named operations over the buffers and registers, the end of a command with and without an error (the
core's only exception mechanism, 60_exceptions.md R122, R126), the issue of a command, and reset. -/

namespace Sys2Proof.Machine

/-- The word a memory lists at bus address `a`: none when nothing has written it since reset. -/
def Memory.find? : Memory → Nat → Option Block
  | [], _ => none
  | (b, v) :: m, a => if a = b then some v else Memory.find? m a

/-- Store a word at bus address `a`, keeping the addresses strictly rising. -/
def Memory.set : Memory → Nat → Block → Memory
  | [], a, v => [(a, v)]
  | (b, u) :: m, a, v =>
    if a < b then (a, v) :: (b, u) :: m
    else if a = b then (a, v) :: m
    else (b, u) :: Memory.set m a v

/-- Every listed address is above `lo`, and they rise strictly. -/
def Memory.risesFrom : Nat → Memory → Bool
  | _, [] => true
  | lo, (a, _) :: m => decide (lo < a) && Memory.risesFrom a m

/-- The canonical form: addresses strictly rising, each inside the IN or OUT window (0x100 to 0x2FF). An unlisted address
reads as no stored word, so no entry equals what an unlisted address reads as (log 8). -/
def Memory.wf (m : Memory) : Bool := Memory.risesFrom 0xFF m && m.all (fun c => decide (c.1 < 0x300))

/-- What the buffers hold at bus address `a`: the stored word, or, where nothing has been written since reset, the free value
that address has had since then (10_state.md R26, R27; I5; log 4). -/
def State.bufferWord (s : State) (a : Nat) : Block :=
  match s.mem.find? a with
  | some v => v
  | none => Config.powerOnWord s.resets a

/-- IN[i] (10_state.md R26). -/
def State.inWord (s : State) (i : Nat) : Block := s.bufferWord (0x100 + i)

/-- OUT[i] (10_state.md R27). -/
def State.outWord (s : State) (i : Nat) : Block := s.bufferWord (0x200 + i)

/-- `IN[i] <- v`: a host write (R38). -/
def State.setIn (s : State) (i : Nat) (v : Block) : State := { s with mem := s.mem.set (0x100 + i) v }

/-- `OUT[i] <- v`: a command's write (R40). -/
def State.setOut (s : State) (i : Nat) (v : Block) : State := { s with mem := s.mem.set (0x200 + i) v }

/-- `x[DOUT] <- v`. -/
def State.setDout (s : State) (v : Block) : State := { s with dout := v }

/-- `x[W] <- w`, all eight together (43_key_schedule.md R75). -/
def State.setW (s : State) (w : Vector KWord 8) : State := { s with w := w }

/-- `x[IV] <- draw16()` (45_chaining_modes.md R103, R104): the next answer of the random source, a free value (log 2). -/
def State.drawIv (s : State) : State := { s with iv := Config.draw16 s.ivDraws, ivDraws := s.ivDraws + 1 }

/-- The completion update without an error (46_control.md R109): ERR <- NONE, BUSY <- 0, DONE <- 1. -/
def State.finish (s : State) : State := { s with status := Status.completed .none }

/-- `raise Err(e)` (60_exceptions.md R122): ERR <- e, BUSY <- 0, DONE <- 1, and nothing else. An error is not a trap: nothing
is saved, no mode changes and no vector is taken (R126); there is no return from one (R127), the next issue clears ERR. -/
def State.raiseErr (s : State) (e : ErrCode) : State := { s with status := Status.completed e }

/-- `issue(v)` (46_control.md R107): the word is stored in CMD, BUSY <- 1, DONE <- 0, ERR <- 0; nothing else changes. -/
def State.issue (s : State) (v : Block) : State := { s with cmd := v, status := Status.pending }

/-- The reset input (70_reset_and_hazards.md R135, R136): every register at its reset value, a pending command abandoned, the
buffers' contents unspecified anew (`resets` moves on, log 4). The host's own list and notes and the free values' indexes
are outside the core and stay (log 11). -/
def State.afterReset (s : State) : State :=
  { State.reset with
    host := s.host
    noted := s.noted
    busEvents := s.busEvents
    ivDraws := s.ivDraws
    resets := s.resets + 1 }

end Sys2Proof.Machine
end

