-- ==== Sys2Proof/Machine/Operands.lean ====
section
/-! DEFINITION. The operand forms: the nibbles of a block, the block codec (42_block_codec.md), the nibbles of a key-schedule
word, the round-key view, zero extension, and the S-box in use. The fields of the command word are in Decode.lean. -/

namespace Sys2Proof.Machine

/-- The S-box of this core: the OPEN parameter (44_round_transform.md R77, log 1). -/
def sbox : SBox := Config.sbox

/-- `zext_16(v)` (00_scope.md R11). -/
def zext16 {n : Nat} (v : BitVec n) : Block := v.setWidth 16

/-- The state matrix: `m[r][c]` is the field `mrc` (R13). -/
structure NibbleMatrix where
  m00 : Nibble
  m01 : Nibble
  m10 : Nibble
  m11 : Nibble
deriving DecidableEq, Repr

/-- Nibble 0 of a block, bits 15:12 (R13, R41). -/
def nib0 (w : Block) : Nibble := w.extractLsb' 12 4

/-- Nibble 1 of a block, bits 11:8. -/
def nib1 (w : Block) : Nibble := w.extractLsb' 8 4

/-- Nibble 2 of a block, bits 7:4. -/
def nib2 (w : Block) : Nibble := w.extractLsb' 4 4

/-- Nibble 3 of a block, bits 3:0. -/
def nib3 (w : Block) : Nibble := w.extractLsb' 0 4

/-- `nibbles(w)` (R63): most-significant first. -/
def nibbles (w : Block) : List Nibble := [nib0 w, nib1 w, nib2 w, nib3 w]

/-- `toM(w)` (R64): column-major fill, `[[n0, n2], [n1, n3]]`. -/
def toM (w : Block) : NibbleMatrix := { m00 := nib0 w, m10 := nib1 w, m01 := nib2 w, m11 := nib3 w }

/-- `fromM(m) = m[0][0] : m[1][0] : m[0][1] : m[1][1]` (R65). -/
def fromM (m : NibbleMatrix) : Block := m.m00 ++ m.m10 ++ m.m01 ++ m.m11

/-- Nibble 0 of a key-schedule word, bits 7:4 (R13, R24). -/
def wordNib0 (u : KWord) : Nibble := u.extractLsb' 4 4

/-- Nibble 1 of a key-schedule word, bits 3:0. -/
def wordNib1 (u : KWord) : Nibble := u.extractLsb' 0 4

/-- The word `[u0, u1]` as 8 bits, `u0 : u1` (R68). -/
def kword (u0 u1 : Nibble) : KWord := u0 ++ u1

/-- `RK(W, r) = W[2r] : W[2r+1]` (43_key_schedule.md R73; 10_state.md R25), the round key of index 0..3. -/
def roundKey (w : Vector KWord 8) (r : Fin 4) : Block := w[2 * r.val] ++ w[2 * r.val + 1]

end Sys2Proof.Machine
end

