-- ==== Sys2Proof/Machine/Bus.lean ====
section
/-! DEFINITION. The host bus: the address map (20_memory.md R35), MemRead and MemWrite (R38) with the BUSY rules
(70_reset_and_hazards.md R139, R140), and what one host event does. -/

namespace Sys2Proof.Machine

/-- What a bus address names (10_state.md R16, 20_memory.md R35). -/
inductive Location where
  | cmd
  | status
  | key
  | iv
  | din
  | dout
  | keyWord (i : Fin 8)
  | roundKey (r : Fin 4)
  | inBuf (i : Fin 256)
  | outBuf (i : Fin 256)
  | reserved
deriving DecidableEq, Repr

/-- The address map (R35). -/
def locate (a : BusAddr) : Location :=
  let n := a.toNat
  if n = 0x000 then .cmd
  else if n = 0x001 then .status
  else if n = 0x002 then .key
  else if n = 0x003 then .iv
  else if n = 0x004 then .din
  else if n = 0x005 then .dout
  else if n < 0x008 then .reserved
  else if h : n < 0x010 then .keyWord ⟨n - 0x008, by omega⟩
  else if h : n < 0x014 then .roundKey ⟨n - 0x010, by omega⟩
  else if n < 0x100 then .reserved
  else if h : n < 0x200 then .inBuf ⟨n - 0x100, by omega⟩
  else if h : n < 0x300 then .outBuf ⟨n - 0x200, by omega⟩
  else .reserved

/-- The value a location holds; a reserved one reads 0 (R36), W reads zero-extended (10_state.md R24), RK is a view of W
(R25). -/
def State.stored (s : State) : Location → Block
  | .cmd => s.cmd
  | .status => s.status.word
  | .key => s.key
  | .iv => s.iv
  | .din => s.din
  | .dout => s.dout
  | .keyWord i => zext16 s.w[i.val]
  | .roundKey r => Sys2Proof.Machine.roundKey s.w r
  | .inBuf i => s.inWord i.val
  | .outBuf i => s.outWord i.val
  | .reserved => 0x0000

/-- The locations whose value is unspecified while BUSY = 1 (70_reset_and_hazards.md R140). -/
def Location.unsettled : Location → Bool
  | .iv => true
  | .dout => true
  | .keyWord _ => true
  | .roundKey _ => true
  | .outBuf _ => true
  | .cmd => false
  | .status => false
  | .key => false
  | .din => false
  | .inBuf _ => false
  | .reserved => false

/-- `MemRead(a, 1)` (R38), subject to R140 while BUSY = 1: a free value, a new one at each read (log 3). -/
def State.busRead (s : State) (a : BusAddr) : Block :=
  if s.status.busy && (locate a).unsettled then Config.busyRead s.busEvents else s.stored (locate a)

/-- `MemWrite(a, 1, v)` (R38): ignored while BUSY = 1 (R139); a CMD write issues; read-only and reserved locations ignore it
(R36, R37). -/
def State.busWrite (s : State) (a : BusAddr) (v : Block) : State :=
  if s.status.busy then s
  else
    match locate a with
    | .cmd => s.issue v
    | .key => { s with key := v }
    | .iv => { s with iv := v }
    | .din => { s with din := v }
    | .inBuf i => s.setIn i.val v
    | .status => s
    | .dout => s
    | .keyWord _ => s
    | .roundKey _ => s
    | .outBuf _ => s
    | .reserved => s

/-- What one event from outside does to the core (and to the host's notes). A `WAIT` that is served sees BUSY = 0, reads
nothing else and goes on; a write of a value never noted makes no access (log 6). -/
def State.access (s : State) : HostEvent → State
  | .write a v => s.busWrite a v
  | .writeNoted a k =>
    match s.noted[k]? with
    | some note => s.busWrite a note.2
    | none => s
  | .read a => { s with noted := (a, s.busRead a) :: s.noted }
  | .wait => s
  | .reset => s.afterReset

/-- Serve the next event of the host's list. -/
def State.serveHost (s : State) : State :=
  match s.host with
  | [] => s
  | e :: rest => { s.access e with host := rest, busEvents := s.busEvents + 1 }

end Sys2Proof.Machine
end

