-- ==== Sys2Proof/Syntax.lean ====
section
/-! DEFINITION. The commands of the core: one constructor per row of spec/opcode_table.json (30_encoding.md R53). -/

namespace Sys2Proof

/-- A decoded command with its operands, each of the width its field has (R51, R52). Block operands are never in the command
word: they are registers and buffers (R52). -/
inductive Instr where
  /-- NOP (46_control.md R113). -/
  | nop
  /-- GFMUL a, b (41_gf_arith.md R62). -/
  | gfmul (a b : Nibble)
  /-- SUBNIB (44_round_transform.md R88). -/
  | subnib
  /-- INVSUBNIB (R89). -/
  | invsubnib
  /-- SHIFTROWS, also spelled INVSHIFTROWS (R90). -/
  | shiftrows
  /-- MIXCOL (R91). -/
  | mixcol
  /-- INVMIXCOL (R92). -/
  | invmixcol
  /-- ADDRK r, also spelled INVADDRK r (R93); `r` is the round-key index 0..3. -/
  | addrk (r : BitVec 2)
  /-- KEYEXP (43_key_schedule.md R76). -/
  | keyexp
  /-- ENC (R94). -/
  | enc
  /-- DEC (R95). -/
  | dec
  /-- ECB_ENC n (45_chaining_modes.md R101); `n` is the number of IN words consumed, 0..255. -/
  | ecbEnc (n : BitVec 8)
  /-- ECB_DEC n (R102). -/
  | ecbDec (n : BitVec 8)
  /-- CBC_ENC n (`g = false`) and CBC_ENC.G n (`g = true`: draw a fresh IV) (R104). -/
  | cbcEnc (g : Bool) (n : BitVec 8)
  /-- CBC_DEC n (R105); `n` counts the IV too. -/
  | cbcDec (n : BitVec 8)
deriving DecidableEq, Repr

end Sys2Proof
end

