-- ==== Sys2Proof/WellFormed.lean ====
section
/-! DEFINITION. Well-formedness: which commands with number operands may be written (30_encoding.md R56: immediates that do
not fit their field are refused), and which 16-bit words are legal (R51, R54). -/

namespace Sys2Proof

/-- The five formats of R51. -/
inductive Format where
  /-- no operand -/
  | N
  /-- two nibble immediates -/
  | G
  /-- round index -/
  | R
  /-- block count -/
  | M
  /-- block count and IV-generate flag -/
  | MG
deriving DecidableEq, Repr

/-- The format the opcode field selects (R53); 0xF is reserved and has none (R54). -/
def formatOf : Nat → Option Format
  | 0x0 => some .N
  | 0x1 => some .G
  | 0x2 => some .N
  | 0x3 => some .N
  | 0x4 => some .N
  | 0x5 => some .N
  | 0x6 => some .N
  | 0x7 => some .R
  | 0x8 => some .N
  | 0x9 => some .N
  | 0xA => some .N
  | 0xB => some .M
  | 0xC => some .M
  | 0xD => some .MG
  | 0xE => some .M
  | _ => none

/-- The immediates of a command line, as numbers not yet checked against their fields (R56). -/
inductive Immediates where
  | none
  | nibbles (a b : Nat)
  | index (r : Nat)
  | count (n : Nat)
  | flagged (g : Bool) (n : Nat)
deriving DecidableEq, Repr

/-- The format whose operands these are. -/
def Immediates.format : Immediates → Format
  | .none => .N
  | .nibbles _ _ => .G
  | .index _ => .R
  | .count _ => .M
  | .flagged _ _ => .MG

/-- R56: "a, b: 0..15; r: 0..3; n: 0..255". -/
def Immediates.fit : Immediates → Bool
  | .none => true
  | .nibbles a b => decide (a < 16) && decide (b < 16)
  | .index r => decide (r < 4)
  | .count n => decide (n < 256)
  | .flagged _ n => decide (n < 256)

/-- A command line before it is checked: an opcode number and its immediates (R56). -/
structure RawCommand where
  op : Nat
  imm : Immediates
deriving DecidableEq, Repr

/-- A command line is well formed when its opcode is assigned, its operands are those of the opcode's format, and each
immediate fits its field (R51, R53, R56). -/
def RawCommand.wellFormed (c : RawCommand) : Bool :=
  formatOf c.op == some c.imm.format && c.imm.fit

/-- The command line a command is written as. -/
def Instr.raw : Instr → RawCommand
  | .nop => ⟨0x0, .none⟩
  | .gfmul a b => ⟨0x1, .nibbles a.toNat b.toNat⟩
  | .subnib => ⟨0x2, .none⟩
  | .invsubnib => ⟨0x3, .none⟩
  | .shiftrows => ⟨0x4, .none⟩
  | .mixcol => ⟨0x5, .none⟩
  | .invmixcol => ⟨0x6, .none⟩
  | .addrk r => ⟨0x7, .index r.toNat⟩
  | .keyexp => ⟨0x8, .none⟩
  | .enc => ⟨0x9, .none⟩
  | .dec => ⟨0xA, .none⟩
  | .ecbEnc n => ⟨0xB, .count n.toNat⟩
  | .ecbDec n => ⟨0xC, .count n.toNat⟩
  | .cbcEnc g n => ⟨0xD, .flagged g n.toNat⟩
  | .cbcDec n => ⟨0xE, .count n.toNat⟩

/-- A command is well formed when the line it is written as is. The operand types have exactly the fields' widths, so every
command is (`Sys2Proof.Laws.WellFormed.instr_wellFormed`): an ill-formed one cannot be built. -/
def Instr.WellFormed (i : Instr) : Bool := i.raw.wellFormed

/-- R51, R54, read off the formats: a word is legal when its opcode is assigned and every bit its format reserves is 0. -/
def legalWord (w : Block) : Bool :=
  match formatOf (w.extractLsb' 12 4).toNat with
  | none => false
  | some .N => w.extractLsb' 0 12 == 0#12
  | some .G => w.extractLsb' 8 4 == 0#4
  | some .R => w.extractLsb' 2 10 == 0#10
  | some .M => w.extractLsb' 8 4 == 0#4
  | some .MG => w.extractLsb' 9 3 == 0#3

end Sys2Proof
end

