-- ==== Sys2Proof/Decode.lean ====
section
/-! DEFINITION. Decoding a 16-bit command word by the mask and match of 30_encoding.md R53, R108, and encoding a command by
the formats of R51. -/

namespace Sys2Proof

/-- Why a word is illegal (R54). Both reasons end the command with ERR = ILLEGAL (60_exceptions.md R123). -/
inductive DecodeError where
  /-- OP = 0xF (R54). -/
  | reservedOpcode
  /-- A bit the opcode's format reserves is 1 (R51, R54). -/
  | reservedBitSet
deriving DecidableEq, Repr

/-- One row of the opcode map (R53): a word `w` spells the row when `w &&& mask = mtch`, and `build w` reads its operands. -/
structure OpcodeRow where
  mtch : Block
  mask : Block
  build : Block → Instr

/-- R52: the bits `[start + len - 1 : start]` of a command word, unsigned; no operand is sign-extended, scaled or shifted. -/
def commandField (start len : Nat) (w : Block) : BitVec len := w.extractLsb' start len

/-- R52: `a = CMD[7:4]`. -/
def operandA (w : Block) : Nibble := commandField 4 4 w

/-- R52: `b = CMD[3:0]`. -/
def operandB (w : Block) : Nibble := commandField 0 4 w

/-- R52: `r = CMD[1:0]`. -/
def operandR (w : Block) : BitVec 2 := commandField 0 2 w

/-- R52: `n = CMD[7:0]`. -/
def operandN (w : Block) : BitVec 8 := commandField 0 8 w

/-- R52: `g = CMD[8]`. -/
def operandG (w : Block) : Bool := commandField 8 1 w == 1#1

/-- The opcode map of R53, row by row. -/
def opcodeMap : List OpcodeRow := [
  ⟨0x0000, 0xFFFF, fun _ => .nop⟩,
  ⟨0x1000, 0xFF00, fun w => .gfmul (operandA w) (operandB w)⟩,
  ⟨0x2000, 0xFFFF, fun _ => .subnib⟩,
  ⟨0x3000, 0xFFFF, fun _ => .invsubnib⟩,
  ⟨0x4000, 0xFFFF, fun _ => .shiftrows⟩,
  ⟨0x5000, 0xFFFF, fun _ => .mixcol⟩,
  ⟨0x6000, 0xFFFF, fun _ => .invmixcol⟩,
  ⟨0x7000, 0xFFFC, fun w => .addrk (operandR w)⟩,
  ⟨0x8000, 0xFFFF, fun _ => .keyexp⟩,
  ⟨0x9000, 0xFFFF, fun _ => .enc⟩,
  ⟨0xA000, 0xFFFF, fun _ => .dec⟩,
  ⟨0xB000, 0xFF00, fun w => .ecbEnc (operandN w)⟩,
  ⟨0xC000, 0xFF00, fun w => .ecbDec (operandN w)⟩,
  ⟨0xD000, 0xFE00, fun w => .cbcEnc (operandG w) (operandN w)⟩,
  ⟨0xE000, 0xFF00, fun w => .cbcDec (operandN w)⟩]

/-- R53: "A word `w` spells mnemonic X when `(w & mask_X) = match_X`". -/
def OpcodeRow.spells (r : OpcodeRow) (w : Block) : Bool := w &&& r.mask == r.mtch

/-- `decode(v)` of 46_control.md R108: the row that matches, with its operands; illegal, by name, when none does. Total on
all 65536 words. -/
def decode (w : Block) : Except DecodeError Instr :=
  match opcodeMap.find? (fun r => r.spells w) with
  | some r => .ok (r.build w)
  | none => .error (if w.extractLsb' 12 4 == 0xF#4 then .reservedOpcode else .reservedBitSet)

/-- The word of a command, field by field from the most significant (R51, R53). -/
def encode : Instr → Block
  | .nop => 0x0#4 ++ 0#12
  | .gfmul a b => 0x1#4 ++ 0#4 ++ a ++ b
  | .subnib => 0x2#4 ++ 0#12
  | .invsubnib => 0x3#4 ++ 0#12
  | .shiftrows => 0x4#4 ++ 0#12
  | .mixcol => 0x5#4 ++ 0#12
  | .invmixcol => 0x6#4 ++ 0#12
  | .addrk r => 0x7#4 ++ 0#10 ++ r
  | .keyexp => 0x8#4 ++ 0#12
  | .enc => 0x9#4 ++ 0#12
  | .dec => 0xA#4 ++ 0#12
  | .ecbEnc n => 0xB#4 ++ 0#4 ++ n
  | .ecbDec n => 0xC#4 ++ 0#4 ++ n
  | .cbcEnc g n => 0xD#4 ++ 0#3 ++ BitVec.ofBool g ++ n
  | .cbcDec n => 0xE#4 ++ 0#4 ++ n

/-- The instruction the decoder reads from a row of the opcode table whose bits are `w`: every row is one 16-bit word (R49),
and a bit of `w` above the row's `nbits` counts as 0. -/
def decodeTableWord (nbits w : Nat) : Option Instr :=
  match decode (BitVec.ofNat 16 (w % 2 ^ nbits)) with
  | .ok i => some i
  | .error _ => none

end Sys2Proof
end

