-- ==== Sys2Proof/Machine/GfArith.lean ====
section
/-! DEFINITION. The GF(2^4) nibble multiplier (41_gf_arith.md). -/

namespace Sys2Proof.Machine

/-- The loop of `gf_mul` (R58), `k` rounds to go, with accumulator `p`: add `a` where `b[0]` is set, double `a` modulo
x^4 + x + 1, halve `b`. -/
def gfMulLoop : Nat → Nibble → Nibble → Nibble → Nibble
  | 0, p, _, _ => p
  | k + 1, p, a, b =>
    gfMulLoop k (if b.getLsbD 0 then p ^^^ a else p) (if a.getLsbD 3 then (a <<< 1) ^^^ 0x3#4 else a <<< 1) (b >>> 1)

/-- `gf_mul(a, b)` (R58): four rounds from an accumulator of 0. -/
def gfMul (a b : Nibble) : Nibble := gfMulLoop 4 0 a b

/-- GFMUL a, b (R62): `x[DOUT] <- zext_16(gf_mul(a, b))`. -/
def execGfmul (a b : Nibble) (s : State) : Host.Outcome State Fault Refusal :=
  .next (s.setDout (zext16 (gfMul a b))).finish

end Sys2Proof.Machine
end

