-- ==== Sys2Proof/Machine/KeySchedule.lean ====
section
/-! DEFINITION. The key-schedule expander (43_key_schedule.md). The S-box is an argument, so that every fact can be stated for
all permutations (92_eei_decisions.md D24). -/

namespace Sys2Proof.Machine

/-- `RotWord(u)` (R69): the two nibbles swapped. -/
def rotWord (u : KWord) : KWord := kword (wordNib1 u) (wordNib0 u)

/-- `SubWord(u)` (R70): the S-box on each nibble. -/
def subWord (S : SBox) (u : KWord) : KWord := kword (S (wordNib0 u)) (S (wordNib1 u))

/-- `RCON[j]` (R71): [1,0], [2,0], [4,0]. No other index is used. -/
def rcon : Nat → KWord
  | 1 => 0x10
  | 2 => 0x20
  | 3 => 0x40
  | _ => 0x00

/-- The recurrence of `KeyExpand(k)` (R72): word `i` from the two before it. -/
def keyWord (S : SBox) (k : Block) : Nat → KWord
  | 0 => k.extractLsb' 8 8
  | 1 => k.extractLsb' 0 8
  | i + 2 =>
    keyWord S k i ^^^
      (if (i + 2) % 2 = 0 then subWord S (rotWord (keyWord S k (i + 1))) ^^^ rcon ((i + 2) / 2) else keyWord S k (i + 1))

/-- `KeyExpand(k)` (R72): W[0..7] (eight words: 90_conflicts.md C1). -/
def keyExpand (S : SBox) (k : Block) : Vector KWord 8 :=
  #v[keyWord S k 0, keyWord S k 1, keyWord S k 2, keyWord S k 3, keyWord S k 4, keyWord S k 5, keyWord S k 6, keyWord S k 7]

/-- `x[W] <- KeyExpand(x[KEY])` (R75). -/
def State.expandKey (s : State) : State := s.setW (keyExpand sbox s.key)

/-- KEYEXP (R76). -/
def execKeyexp (s : State) : Host.Outcome State Fault Refusal := .next s.expandKey.finish

end Sys2Proof.Machine
end

