-- ==== Sys2Proof/Machine/RoundTransform.lean ====
section
/-! DEFINITION. The round primitives on the state matrix, the 3-round pipelines, and the single-block commands
(44_round_transform.md). -/

namespace Sys2Proof.Machine

/-- A nibble function on every entry of a matrix. -/
def NibbleMatrix.map (f : Nibble → Nibble) (m : NibbleMatrix) : NibbleMatrix :=
  { m00 := f m.m00, m01 := f m.m01, m10 := f m.m10, m11 := f m.m11 }

/-- SubNibbles (R78). -/
def subNibbles (S : SBox) (m : NibbleMatrix) : NibbleMatrix := m.map S

/-- InvSubNibbles (R79). -/
def invSubNibbles (S : SBox) (m : NibbleMatrix) : NibbleMatrix := m.map S.symm

/-- ShiftRows (R80): swap the two entries of row 1. -/
def shiftRows (m : NibbleMatrix) : NibbleMatrix := { m00 := m.m00, m01 := m.m01, m10 := m.m11, m11 := m.m10 }

/-- Each column of `m` multiplied by the 2x2 matrix `k` over GF(2^4) (R81, R82). -/
def mulColumns (k m : NibbleMatrix) : NibbleMatrix where
  m00 := gfMul k.m00 m.m00 ^^^ gfMul k.m01 m.m10
  m10 := gfMul k.m10 m.m00 ^^^ gfMul k.m11 m.m10
  m01 := gfMul k.m00 m.m01 ^^^ gfMul k.m01 m.m11
  m11 := gfMul k.m10 m.m01 ^^^ gfMul k.m11 m.m11

/-- MIX = [[1,4],[4,1]] (R10, R61). -/
def mixMatrix : NibbleMatrix := { m00 := 1, m01 := 4, m10 := 4, m11 := 1 }

/-- INV_MIX = [[9,2],[2,9]] (R10, R61). -/
def invMixMatrix : NibbleMatrix := { m00 := 9, m01 := 2, m10 := 2, m11 := 9 }

/-- MixColumns (R81). -/
def mixColumns (m : NibbleMatrix) : NibbleMatrix := mulColumns mixMatrix m

/-- InvMixColumns (R82). -/
def invMixColumns (m : NibbleMatrix) : NibbleMatrix := mulColumns invMixMatrix m

/-- AddRoundKey (R83), entry by entry with the key's matrix. -/
def addRoundKey (m k : NibbleMatrix) : NibbleMatrix :=
  { m00 := m.m00 ^^^ k.m00, m01 := m.m01 ^^^ k.m01, m10 := m.m10 ^^^ k.m10, m11 := m.m11 ^^^ k.m11 }

/-- SubN on a block: the codec around SubNibbles (R66, R78). -/
def subN (S : SBox) (w : Block) : Block := fromM (subNibbles S (toM w))

/-- InvSubN on a block (R79). -/
def invSubN (S : SBox) (w : Block) : Block := fromM (invSubNibbles S (toM w))

/-- SR on a block (R80). It is its own inverse, InvShiftRows. -/
def sr (w : Block) : Block := fromM (shiftRows (toM w))

/-- MC on a block (R81). -/
def mc (w : Block) : Block := fromM (mixColumns (toM w))

/-- IMC on a block (R82). -/
def imc (w : Block) : Block := fromM (invMixColumns (toM w))

/-- ARK on a block (R83). -/
def ark (w k : Block) : Block := fromM (addRoundKey (toM w) (toM k))

/-- Encrypt(p, W) (R85): ARK with RK0; rounds 1 and 2; a final round 3 without MixColumns. -/
def encrypt (S : SBox) (p : Block) (w : Vector KWord 8) : Block :=
  let s := ark p (roundKey w 0)
  let s := ([1, 2] : List (Fin 4)).foldl (fun s r => ark (mc (sr (subN S s))) (roundKey w r)) s
  ark (sr (subN S s)) (roundKey w 3)

/-- Decrypt(c, W) (R86): undo the final round; rounds 2 and 1; ARK with RK0. -/
def decrypt (S : SBox) (c : Block) (w : Vector KWord 8) : Block :=
  let s := invSubN S (sr (ark c (roundKey w 3)))
  let s := ([2, 1] : List (Fin 4)).foldl (fun s r => invSubN S (sr (imc (ark s (roundKey w r))))) s
  ark s (roundKey w 0)

/-- SUBNIB (R88): `x[DOUT] <- SubN(x[DIN])`. -/
def execSubnib (s : State) : Host.Outcome State Fault Refusal := .next (s.setDout (subN sbox s.din)).finish

/-- INVSUBNIB (R89): `x[DOUT] <- InvSubN(x[DIN])`. -/
def execInvsubnib (s : State) : Host.Outcome State Fault Refusal := .next (s.setDout (invSubN sbox s.din)).finish

/-- SHIFTROWS (R90): `x[DOUT] <- SR(x[DIN])`. -/
def execShiftrows (s : State) : Host.Outcome State Fault Refusal := .next (s.setDout (sr s.din)).finish

/-- MIXCOL (R91): `x[DOUT] <- MC(x[DIN])`. -/
def execMixcol (s : State) : Host.Outcome State Fault Refusal := .next (s.setDout (mc s.din)).finish

/-- INVMIXCOL (R92): `x[DOUT] <- IMC(x[DIN])`. -/
def execInvmixcol (s : State) : Host.Outcome State Fault Refusal := .next (s.setDout (imc s.din)).finish

/-- ADDRK r (R93): `x[DOUT] <- x[DIN] xor RK(x[W], r)`, with W as the last expansion left it. -/
def execAddrk (r : BitVec 2) (s : State) : Host.Outcome State Fault Refusal :=
  .next (s.setDout (ark s.din (roundKey s.w r.toFin))).finish

/-- ENC (R94): `x[W] <- KeyExpand(x[KEY]); x[DOUT] <- Encrypt(x[DIN], x[W])`. -/
def execEnc (s : State) : Host.Outcome State Fault Refusal :=
  let s := s.expandKey
  .next (s.setDout (encrypt sbox s.din s.w)).finish

/-- DEC (R95): `x[W] <- KeyExpand(x[KEY]); x[DOUT] <- Decrypt(x[DIN], x[W])`. -/
def execDec (s : State) : Host.Outcome State Fault Refusal :=
  let s := s.expandKey
  .next (s.setDout (decrypt sbox s.din s.w)).finish

end Sys2Proof.Machine
end

