-- ==== Sys2Proof/Machine/Chaining.lean ====
section
/-! DEFINITION. The ECB and CBC message commands and their block sequencer (45_chaining_modes.md). -/

namespace Sys2Proof.Machine

/-- The ECB sequencer (R101, R102): `todo` blocks left, at block index `blk`, each `OUT[blk] <- f(IN[blk])`. -/
def ecbLoop (f : Block → Block) : (todo blk : Nat) → State → State
  | 0, _, s => s
  | todo + 1, blk, s => ecbLoop f todo (blk + 1) (s.setOut blk (f (s.inWord blk)))

/-- The CBC encryption sequencer (R104): `todo` blocks left, at block index `blk`, with ChainState `prev`. -/
def cbcEncLoop (f : Block → Block) : (todo blk : Nat) → (prev : Block) → State → State
  | 0, _, _, s => s
  | todo + 1, blk, prev, s =>
    let c := f (s.inWord blk ^^^ prev)
    cbcEncLoop f todo (blk + 1) c (s.setOut (blk + 1) c)

/-- The CBC decryption sequencer (R105): the chain value is the input ciphertext, not the plaintext. -/
def cbcDecLoop (f : Block → Block) : (todo blk : Nat) → (prev : Block) → State → State
  | 0, _, _, s => s
  | todo + 1, blk, prev, s =>
    let c := s.inWord (blk + 1)
    cbcDecLoop f todo (blk + 1) c (s.setOut blk (f c ^^^ prev))

/-- ECB_ENC n (R101). -/
def execEcbEnc (n : BitVec 8) (s : State) : Host.Outcome State Fault Refusal :=
  if n.toNat = 0 then .next (s.raiseErr .align)
  else
    let s := s.expandKey
    .next (ecbLoop (fun p => encrypt sbox p s.w) n.toNat 0 s).finish

/-- ECB_DEC n (R102). -/
def execEcbDec (n : BitVec 8) (s : State) : Host.Outcome State Fault Refusal :=
  if n.toNat = 0 then .next (s.raiseErr .align)
  else
    let s := s.expandKey
    .next (ecbLoop (fun c => decrypt sbox c s.w) n.toNat 0 s).finish

/-- CBC_ENC n (`g = false`) and CBC_ENC.G n (`g = true`) (R104): the drawn or supplied IV is OUT[0] and the first chain
value. -/
def execCbcEnc (g : Bool) (n : BitVec 8) (s : State) : Host.Outcome State Fault Refusal :=
  if n.toNat = 0 then .next (s.raiseErr .align)
  else
    let s := if g then s.drawIv else s
    let s := s.expandKey
    .next (cbcEncLoop (fun p => encrypt sbox p s.w) n.toNat 0 s.iv (s.setOut 0 s.iv)).finish

/-- CBC_DEC n (R105): IN[0] is the IV, and n - 1 blocks are decrypted. -/
def execCbcDec (n : BitVec 8) (s : State) : Host.Outcome State Fault Refusal :=
  if n.toNat < 2 then .next (s.raiseErr .align)
  else
    let s := s.expandKey
    .next (cbcDecLoop (fun c => decrypt sbox c s.w) (n.toNat - 1) 0 (s.inWord 0) s).finish

end Sys2Proof.Machine
end

