-- ==== Sys2Proof/Machine/Control.lean ====
section
/-! DEFINITION. NOP (46_control.md R113). -/

namespace Sys2Proof.Machine

/-- NOP (R113): only the completion update. -/
def execNop (s : State) : Host.Outcome State Fault Refusal := .next s.finish

end Sys2Proof.Machine
end

