-- ==== Sys2Proof/Machine/Dispatch.lean ====
section
/-! DEFINITION. `exec`: one arm per command. It is the completion of a legal command (46_control.md R109): the command's
pseudocode and the completion update of STATUS, in one atomic step. -/

namespace Sys2Proof.Machine

def exec (i : Instr) (s : State) : Host.Outcome State Fault Refusal :=
  match i with
  | .nop => Sys2Proof.Machine.execNop s
  | .gfmul a b => Sys2Proof.Machine.execGfmul a b s
  | .subnib => Sys2Proof.Machine.execSubnib s
  | .invsubnib => Sys2Proof.Machine.execInvsubnib s
  | .shiftrows => Sys2Proof.Machine.execShiftrows s
  | .mixcol => Sys2Proof.Machine.execMixcol s
  | .invmixcol => Sys2Proof.Machine.execInvmixcol s
  | .addrk r => Sys2Proof.Machine.execAddrk r s
  | .keyexp => Sys2Proof.Machine.execKeyexp s
  | .enc => Sys2Proof.Machine.execEnc s
  | .dec => Sys2Proof.Machine.execDec s
  | .ecbEnc n => Sys2Proof.Machine.execEcbEnc n s
  | .ecbDec n => Sys2Proof.Machine.execEcbDec n s
  | .cbcEnc g n => Sys2Proof.Machine.execCbcEnc g n s
  | .cbcDec n => Sys2Proof.Machine.execCbcDec n s

end Sys2Proof.Machine
end

