-- ==== Sys2Proof/Machine/Completion.lean ====
section
/-! DEFINITION. The completion step of a pending command (46_control.md R109), and which agent moves next (60_exceptions.md
R132, R110). -/

namespace Sys2Proof.Machine

/-- `complete()` (R109): decode the word in CMD; an illegal one ends with ERR = ILLEGAL and no other effect (60_exceptions.md
R123); a legal one runs. -/
def State.complete (s : State) : Host.Outcome State Fault Refusal :=
  match decode s.cmd with
  | .ok i => exec i s
  | .error _ => .next (s.raiseErr .illegal)

/-- Who takes the next step. -/
inductive Agent where
  /-- the core's completion step -/
  | completion
  /-- the host (or the reset input): the next event of the list -/
  | host
  /-- nobody: no command pending and nothing to come -/
  | idle
deriving DecidableEq, Repr

/-- Whether the host is polling STATUS, or does nothing at all: then nothing but the completion can change the core. -/
def hostLetsThrough : List HostEvent → Bool
  | [] => true
  | .wait :: _ => true
  | .write _ _ :: _ => false
  | .writeNoted _ _ :: _ => false
  | .read _ :: _ => false
  | .reset :: _ => false

/-- The next agent. Idle, the host acts if it has anything to do (R134). With a command pending, the completion is enabled
(R109); it is taken when the host only waits for it, and otherwise the OPEN latency decides whether it comes before or after
the host's next access (R110, R144; log 5). -/
def State.nextAgent (s : State) : Agent :=
  if s.status.busy then
    if hostLetsThrough s.host || Config.completesFirst s.busEvents then .completion else .host
  else if s.host.isEmpty then .idle
  else .host

end Sys2Proof.Machine
end

