-- ==== Sys2Proof/Machine/Step.lean ====
section
/-! DEFINITION. One step of the machine: the completion of the pending command, or one host event, or nothing. -/

namespace Sys2Proof.Machine

/-- One atomic step (20_memory.md R44, 46_control.md R109). -/
def step (s : State) : Host.Outcome State Fault Refusal :=
  match s.nextAgent with
  | .completion => s.complete
  | .host => .next s.serveHost
  | .idle => .next s

/-- `s` with the command word `w` pending and the host polling for its completion: the state that `WR CMD, w` leads to, with the
`WAIT` of a mnemonic line next (30_encoding.md R56, 46_control.md R107), so that the very next step completes `w` (log 7).
Every command is one 16-bit word (R49); a bit of `w` above `nbits` counts as 0. -/
def State.withFetchWord (s : State) (nbits w : Nat) : State :=
  { s.issue (BitVec.ofNat 16 (w % 2 ^ nbits)) with host := .wait :: s.host }

end Sys2Proof.Machine
end

