-- ==== Sys2Proof/Machine/HostProgram.lean ====
section
/-! DEFINITION. The host-program notation of 30_encoding.md R56 and the pseudo-instructions of R57, as the host events they
stand for. It has no hardware effect of its own (92_eei_decisions.md D32). -/

namespace Sys2Proof.Machine

/-- The command a well-formed command line names (R56): an immediate that does not fit its field is refused. -/
def instrOf? (c : RawCommand) : Option Instr :=
  if c.wellFormed then
    match c.op, c.imm with
    | 0x0, .none => some .nop
    | 0x1, .nibbles a b => some (.gfmul (BitVec.ofNat 4 a) (BitVec.ofNat 4 b))
    | 0x2, .none => some .subnib
    | 0x3, .none => some .invsubnib
    | 0x4, .none => some .shiftrows
    | 0x5, .none => some .mixcol
    | 0x6, .none => some .invmixcol
    | 0x7, .index r => some (.addrk (BitVec.ofNat 2 r))
    | 0x8, .none => some .keyexp
    | 0x9, .none => some .enc
    | 0xA, .none => some .dec
    | 0xB, .count n => some (.ecbEnc (BitVec.ofNat 8 n))
    | 0xC, .count n => some (.ecbDec (BitVec.ofNat 8 n))
    | 0xD, .flagged g n => some (.cbcEnc g (BitVec.ofNat 8 n))
    | 0xE, .count n => some (.cbcDec (BitVec.ofNat 8 n))
    | _, _ => none
  else none

/-- R57: `INVSHIFTROWS` is `SHIFTROWS`. -/
def invShiftRowsLine : RawCommand := ⟨0x4, .none⟩

/-- R57: `INVADDRK r` is `ADDRK r`. -/
def invAddRkLine (r : Nat) : RawCommand := ⟨0x7, .index r⟩

/-- `<loc>` of R56: a register name, a buffer word, or a 10-bit address. -/
inductive Loc where
  | cmd
  | status
  | key
  | iv
  | din
  | dout
  | w (i : Nat)
  | rk (r : Nat)
  | inBuf (i : Nat)
  | outBuf (i : Nat)
  | addr (a : Nat)
deriving DecidableEq, Repr

/-- `addr(loc)` (R56, 10_state.md R16); none where the index or address does not exist. -/
def Loc.addr? : Loc → Option BusAddr
  | .cmd => some 0x000
  | .status => some 0x001
  | .key => some 0x002
  | .iv => some 0x003
  | .din => some 0x004
  | .dout => some 0x005
  | .w i => if i < 8 then some (BitVec.ofNat 10 (0x008 + i)) else none
  | .rk r => if r < 4 then some (BitVec.ofNat 10 (0x010 + r)) else none
  | .inBuf i => if i < 256 then some (BitVec.ofNat 10 (0x100 + i)) else none
  | .outBuf i => if i < 256 then some (BitVec.ofNat 10 (0x200 + i)) else none
  | .addr a => if a < 0x400 then some (BitVec.ofNat 10 a) else none

/-- A 16-bit immediate; one that does not fit is refused. -/
def imm16? (v : Nat) : Option Block := if v < 0x10000 then some (BitVec.ofNat 16 v) else none

/-- One line of a host program (R56, R57). -/
inductive HostLine where
  /-- `WR <loc>, <imm16>` -/
  | wr (l : Loc) (imm : Nat)
  /-- `WR <loc>, c` with `c` the value read `k` reads ago (95_test_vectors.md, programs 1 to 3) -/
  | wrNoted (l : Loc) (k : Nat)
  /-- `RD <loc>` -/
  | rd (l : Loc)
  /-- `WAIT` -/
  | wait
  /-- a command mnemonic with its operands: `WR CMD, <encoding>` then `WAIT` -/
  | command (c : RawCommand)
  /-- `ISSUE <cmd>`: no `WAIT` -/
  | issue (c : RawCommand)
  /-- `ENCRYPT k, p` -/
  | encrypt (k p : Nat)
  /-- `DECRYPT k, c` -/
  | decrypt (k c : Nat)
deriving DecidableEq, Repr

/-- `WR CMD, <encoding>` followed by `WAIT` (R56). -/
def commandEvents (i : Instr) : List HostEvent := [.write 0x000 (encode i), .wait]

/-- What a line stands for; none where R56 refuses an operand. -/
def HostLine.events? : HostLine → Option (List HostEvent)
  | .wr l imm => do return [.write (← l.addr?) (← imm16? imm)]
  | .wrNoted l k => do return [.writeNoted (← l.addr?) k]
  | .rd l => do return [.read (← l.addr?)]
  | .wait => some [.wait]
  | .command c => do return commandEvents (← instrOf? c)
  | .issue c => do return [.write 0x000 (encode (← instrOf? c))]
  | .encrypt k p => do
    return [.write 0x002 (← imm16? k), .write 0x004 (← imm16? p)] ++ commandEvents .enc ++ [.read 0x005]
  | .decrypt k c => do
    return [.write 0x002 (← imm16? k), .write 0x004 (← imm16? c)] ++ commandEvents .dec ++ [.read 0x005]

/-- A host program as the events of its lines, in order. -/
def assemble : List HostLine → Option (List HostEvent)
  | [] => some []
  | l :: ls => do return (← l.events?) ++ (← assemble ls)

end Sys2Proof.Machine
end

