-- ==== Sys2Proof/Machine/HostText.lean ====
section
/-! DEFINITION. The host text layer (47_host_text_interface.md): hex text, the text errors and their order, and the source's
six functions as host event sequences. These rules bind a host driver, not the core (00_scope.md R9; log 15). -/

namespace Sys2Proof.Machine

/-- Hex text, left to right. -/
abbrev Text := List Char

/-- The value of a character of [0-9A-Fa-f] (R114). -/
def hexValue? (c : Char) : Option Nibble :=
  let n := c.toNat
  if 0x30 ≤ n ∧ n ≤ 0x39 then some (BitVec.ofNat 4 (n - 0x30))
  else if 0x41 ≤ n ∧ n ≤ 0x46 then some (BitVec.ofNat 4 (n - 0x41 + 10))
  else if 0x61 ≤ n ∧ n ≤ 0x66 then some (BitVec.ofNat 4 (n - 0x61 + 10))
  else none

/-- The uppercase hex digit of a nibble (R114). -/
def hexDigit (v : Nibble) : Char := Char.ofNat (if v.toNat < 10 then 0x30 + v.toNat else 0x41 + (v.toNat - 10))

/-- The block a text stands for (R114): exactly 4 hex characters, character j being nibble j. -/
def parseBlock : Text → Option Block
  | [a, b, c, d] => do return (← hexValue? a) ++ (← hexValue? b) ++ (← hexValue? c) ++ (← hexValue? d)
  | _ => none

/-- "4 uppercase hex digits, zero-padded" (R114). -/
def blockText (w : Block) : Text := (nibbles w).map hexDigit

/-- A message's blocks (R114): its text in pieces of 4 characters, block 0 first. -/
def blockTexts : Text → List Text
  | a :: b :: c :: d :: rest => [a, b, c, d] :: blockTexts rest
  | [] => []
  | short => [short]

/-- The error descriptors of R120. -/
inductive HostError where
  /-- R115; for a block of a message, the index of the first bad block, block 0 being the first 4 characters of the message
  text. For `decrypt_cbc` that is the leading IV: DESIGN CHOICE, unsafe (log 18). -/
  | formatError (block : Option Nat)
  /-- R116; also the core's ALIGN (60_exceptions.md R121). -/
  | alignmentError
  /-- The core's ILLEGAL, which a correct host never produces (R120). -/
  | illegal
deriving DecidableEq, Repr

/-- The public functions of the source with their text arguments (R118). -/
inductive TextCall where
  | encryptBlock (p k : Text)
  | decryptBlock (c k : Text)
  | encryptEcb (t k : Text)
  | decryptEcb (t k : Text)
  | encryptCbc (t k : Text) (iv : Option Text)
  | decryptCbc (t k : Text)
deriving DecidableEq, Repr

/-- A call whose texts have been checked and read as words. -/
inductive WordCall where
  | encryptBlock (p k : Block)
  | decryptBlock (c k : Block)
  | encryptEcb (ms : List Block) (k : Block)
  | decryptEcb (cs : List Block) (k : Block)
  | encryptCbc (ms : List Block) (k : Block) (iv : Option Block)
  /-- `iv` and the ciphertext blocks after it -/
  | decryptCbc (iv : Block) (cs : List Block) (k : Block)
deriving DecidableEq, Repr

/-- Key, IV or single-block text (R115). -/
def checkBlock (t : Text) : Except HostError Block :=
  match parseBlock t with
  | some b => .ok b
  | none => .error (.formatError none)

/-- The blocks of a message from index `i` on: the first bad one is reported by its index (R115). -/
def checkBlocks : Nat → List Text → Except HostError (List Block)
  | _, [] => .ok []
  | i, t :: ts =>
    match parseBlock t with
    | some b => do return b :: (← checkBlocks (i + 1) ts)
    | none => .error (.formatError (some i))

/-- R116 for `encrypt_ecb`, `decrypt_ecb`, `encrypt_cbc`: a positive multiple of 4 characters. -/
def checkAligned (t : Text) : Except HostError Unit :=
  if t.length = 0 ∨ t.length % 4 ≠ 0 then .error .alignmentError else .ok ()

/-- R116 for `decrypt_cbc`: at least 8 characters, a multiple of 4. -/
def checkAlignedCbc (t : Text) : Except HostError Unit :=
  if t.length < 8 ∨ t.length % 4 ≠ 0 then .error .alignmentError else .ok ()

/-- The text checks in the order of R117: message alignment, key, IV, blocks; for a single block, the block before the key.
The blocks of `decrypt_cbc` are counted from its leading IV as block 0, so a bad IV there is reported as block 0, and the j-th
ciphertext block as block j + 1: R115 does not say where the count starts (DESIGN CHOICE, unsafe, log 18). -/
def TextCall.check : TextCall → Except HostError WordCall
  | .encryptBlock p k => do
    let p ← checkBlock p
    let k ← checkBlock k
    return .encryptBlock p k
  | .decryptBlock c k => do
    let c ← checkBlock c
    let k ← checkBlock k
    return .decryptBlock c k
  | .encryptEcb t k => do
    checkAligned t
    let k ← checkBlock k
    let ms ← checkBlocks 0 (blockTexts t)
    return .encryptEcb ms k
  | .decryptEcb t k => do
    checkAligned t
    let k ← checkBlock k
    let cs ← checkBlocks 0 (blockTexts t)
    return .decryptEcb cs k
  | .encryptCbc t k none => do
    checkAligned t
    let k ← checkBlock k
    let ms ← checkBlocks 0 (blockTexts t)
    return .encryptCbc ms k none
  | .encryptCbc t k (some iv) => do
    checkAligned t
    let k ← checkBlock k
    let iv ← checkBlock iv
    let ms ← checkBlocks 0 (blockTexts t)
    return .encryptCbc ms k (some iv)
  | .decryptCbc t k => do
    checkAlignedCbc t
    let k ← checkBlock k
    let ws ← checkBlocks 0 (blockTexts t)
    match ws with
    | iv :: cs => return .decryptCbc iv cs k
    | [] => .error .alignmentError

/-- `WR IN[i], w` for the words in order, from IN[i] on. -/
def fillIn : Nat → List Block → List HostEvent
  | _, [] => []
  | i, w :: ws => .write (BitVec.ofNat 10 (0x100 + i)) w :: fillIn (i + 1) ws

/-- `RD OUT[i]` for `count` words from OUT[i] on. -/
def readOut : (i count : Nat) → List HostEvent
  | _, 0 => []
  | i, count + 1 => .read (BitVec.ofNat 10 (0x200 + i)) :: readOut (i + 1) count

/-- "run C" and the STATUS read after it (R118). What follows in a call does not depend on the value read: DESIGN CHOICE,
unsafe (log 21). -/
def runCommand (i : Instr) : List HostEvent := commandEvents i ++ [.read 0x001]

/-- A list in pieces of `k` (the last may be shorter), `fuel` pieces at most. -/
def pieces (k : Nat) : (fuel : Nat) → List Block → List (List Block)
  | 0, _ => []
  | _ + 1, [] => []
  | fuel + 1, x :: xs => (x :: xs).take k :: pieces k fuel ((x :: xs).drop k)

/-- One ECB run over at most 255 blocks (R118, R119). OUT is read whatever STATUS says (log 21). -/
def ecbRun (mk : BitVec 8 → Instr) (ws : List Block) : List HostEvent :=
  fillIn 0 ws ++ runCommand (mk (BitVec.ofNat 8 ws.length)) ++ readOut 0 ws.length

/-- CBC encryption runs (R119): the first with the message IV in place (or generated), each later one with IV <- the last
ciphertext word, which is the word read last; a later run's OUT[0] is dropped: it is not read at all (log 20). -/
def cbcEncRuns (g : Bool) : List (List Block) → List HostEvent
  | [] => []
  | first :: later =>
    fillIn 0 first ++ runCommand (.cbcEnc g (BitVec.ofNat 8 first.length)) ++ readOut 0 (first.length + 1) ++
      later.flatMap fun ws =>
        .writeNoted 0x003 0 :: fillIn 0 ws ++ runCommand (.cbcEnc false (BitVec.ofNat 8 ws.length)) ++ readOut 1 ws.length

/-- CBC decryption runs (R119): each run's IN[0] is the ciphertext word before its blocks (the message IV for the first). -/
def cbcDecRuns : (prev : Block) → List (List Block) → List HostEvent
  | _, [] => []
  | prev, ws :: later =>
    fillIn 0 (prev :: ws) ++ runCommand (.cbcDec (BitVec.ofNat 8 (ws.length + 1))) ++ readOut 0 ws.length ++
      cbcDecRuns (ws.getLastD prev) later

/-- The host sequence of a call (R118), split into runs of at most 255 input words (R119). R119 allows any such split; this
one takes full runs from the front, of 255 blocks (254 ciphertext words for CBC_DEC), the last run holding what is left:
DESIGN CHOICE, unsafe (log 20). The sequence is fixed before the call starts: after a nonzero ERR the host still reads the
result locations and makes the later runs, which R118 does not settle: DESIGN CHOICE, unsafe (log 21). -/
def WordCall.events : WordCall → List HostEvent
  | .encryptBlock p k => [.write 0x002 k, .write 0x004 p] ++ runCommand .enc ++ [.read 0x005]
  | .decryptBlock c k => [.write 0x002 k, .write 0x004 c] ++ runCommand .dec ++ [.read 0x005]
  | .encryptEcb ms k => .write 0x002 k :: (pieces 255 ms.length ms).flatMap (ecbRun .ecbEnc)
  | .decryptEcb cs k => .write 0x002 k :: (pieces 255 cs.length cs).flatMap (ecbRun .ecbDec)
  | .encryptCbc ms k none => .write 0x002 k :: cbcEncRuns true (pieces 255 ms.length ms)
  | .encryptCbc ms k (some iv) => .write 0x002 k :: .write 0x003 iv :: cbcEncRuns false (pieces 255 ms.length ms)
  | .decryptCbc iv cs k => .write 0x002 k :: cbcDecRuns iv (pieces 254 cs.length cs)

/-- The whole call: a text error before any command is issued (R115, R116), with no trace (log 19), or the host's event
sequence. -/
def TextCall.events (c : TextCall) : Except HostError (List HostEvent) := do
  let c ← c.check
  return c.events

/-- What a host returns when there is no error (R120): the result text, with the trace log, which the core does not produce:
empty (R118). -/
structure HostResult where
  text : Text
  trace : List Text
deriving DecidableEq, Repr

/-- The error a STATUS word reports (60_exceptions.md R121). -/
def statusError (st : Block) : Option HostError :=
  let e : BitVec 4 := st.extractLsb' 4 4
  if e = 0 then none
  else if e = 1 then some (.formatError none)
  else if e = 2 then some .alignmentError
  else some .illegal

/-- The words read from DOUT or OUT, or the first error a STATUS read reported, from the notes of a call in the order they
were made. An error drops every word read before or after it, as R118 says ("with no result"); that later reads exist at all
is the model's choice (log 21). -/
def callWords : List (BusAddr × Block) → Except HostError (List Block)
  | [] => .ok []
  | (a, v) :: notes =>
    if a = 0x001 then
      match statusError v with
      | some e => .error e
      | none => callWords notes
    else do return v :: (← callWords notes)

/-- What the host returns from the notes of a call, latest first as State holds them (R118, R120): the error, or the text of
the result words in order and an empty trace. An error carries no trace: whether the empty trace of R118 comes with an error
too is not said (R120 names none there); DESIGN CHOICE, unsafe (log 19). -/
def callResult (noted : List (BusAddr × Block)) : Except HostError HostResult := do
  let ws ← callWords noted.reverse
  return { text := ws.flatMap blockText, trace := [] }

end Sys2Proof.Machine
end

