-- ==== Sys2Proof/Safety.lean ====
section
/-! DEFINITION. What counts as a sound state and a safe step, in the words the statements use. -/

namespace Sys2Proof.Machine

/-- The machine invariant: STATUS is one of the values of 10_state.md R19, and the buffers keep their canonical form (every
listed word in the IN or OUT window, so that no command writes outside them: 20_memory.md R40). -/
def State.Inv (s : State) : Bool := s.status.legal && s.mem.wf

/-- No reset is still to come. -/
def State.noResetAhead (s : State) : Bool := s.host.all (fun e => decide (e ≠ .reset))

end Sys2Proof.Machine
end

