-- ==== Sys2Proof/Certificates/Slice0/Obligations.lean ====
section
/-! DEFINITION. The statements for the provers. Each docstring names the rule of spec/ the statement formalises. A free value
(Config.sbox, Config.draw16, Config.busyRead, Config.powerOnWord, Config.completesFirst) may be any: nothing rests on which. -/

namespace Sys2Proof

/-- SBOX_P of 93_implementation_defined.md part 2: a candidate used for examples only, no claim about the hardware. -/
def candidateP (x : Nibble) : Nibble := ([0xE, 4, 0xD, 1, 2, 0xF, 0xB, 8, 3, 0xA, 6, 0xC, 5, 9, 0, 7] : List Nibble).getD x.toNat 0

/-- SBOX_S of 93_implementation_defined.md part 2: the second candidate. -/
def candidateS (x : Nibble) : Nibble := ([9, 4, 0xA, 0xB, 0xD, 1, 8, 5, 6, 2, 0, 3, 0xC, 0xE, 0xF, 7] : List Nibble).getD x.toNat 0

/-- The product of two polynomials over GF(2), bit i being the coefficient of x^i, in 8 bits (no bit is lost when the degrees
add up to at most 7). -/
def polyMul (x y : BitVec 8) : BitVec 8 :=
  (List.range 8).foldl (fun acc i => if y.getLsbD i then acc ^^^ (x <<< i) else acc) 0

/-- STATUS after a completion with outcome code `e` (46_control.md R109), written out. -/
def ended (e : BitVec 4) : Machine.Status := { busy := false, done := true, err := e }

/-- STATUS while a command is pending (46_control.md R107), written out. -/
def inFlight : Machine.Status := { busy := true, done := false, err := 0 }

end Sys2Proof

open Sys2Proof Sys2Proof.Machine

/-! ## Encoding -/

/-- Decode and encode agree on every command, with every operand at every value (30_encoding.md section 1 and 2; the encoder
is the model's own). -/
def Obligations.DecodeOfEncodeIsTheCommand : Prop :=
  ∀ i : Instr, decode (encode i) = .ok i

/-- The other direction: a word that decodes to a command is that command's word, so no two words spell one command
(30_encoding.md sections 1 to 3). -/
def Obligations.EncodeOfDecodeIsTheWord : Prop :=
  ∀ (w : Block) (i : Instr), decode w = .ok i → encode i = w

/-- R54: exactly these words are illegal; issued, an illegal word is accepted (BUSY = 1) and then completes with ERR = ILLEGAL
(3) and no other effect. -/
def Obligations.IllegalWordsAreAcceptedAndCompleteIllegal : Prop :=
  (∀ w : Block, (∃ e, decode w = .error e) ↔
    (w.extractLsb' 12 4 = 0xF#4 ∨
      (w.extractLsb' 12 4 ∈ [0x0#4, 0x2#4, 0x3#4, 0x4#4, 0x5#4, 0x6#4, 0x8#4, 0x9#4, 0xA#4] ∧ w.extractLsb' 0 12 ≠ 0) ∨
      (w.extractLsb' 12 4 = 0x1#4 ∧ w.extractLsb' 8 4 ≠ 0) ∨
      (w.extractLsb' 12 4 = 0x7#4 ∧ w.extractLsb' 2 10 ≠ 0) ∨
      (w.extractLsb' 12 4 ∈ [0xB#4, 0xC#4, 0xE#4] ∧ w.extractLsb' 8 4 ≠ 0) ∨
      (w.extractLsb' 12 4 = 0xD#4 ∧ w.extractLsb' 9 3 ≠ 0))) ∧
  (∀ (s : State) (w : Block) (e : DecodeError), s.status.busy = false → decode w = .error e →
    s.busWrite 0x000 w = { s with cmd := w, status := inFlight } ∧
    (s.busWrite 0x000 w).complete = .next { s with cmd := w, status := ended 3 })

/-- 30_encoding.md section 3: at most one row of the opcode map matches any word. -/
def Obligations.OpcodeRowsAreDisjoint : Prop :=
  opcodeMap.Pairwise (fun r r' => ∀ w : Block, ¬ (r.spells w = true ∧ r'.spells w = true))

/-- Words of 95_test_vectors.md V-CMD and of the command rules' examples decode as written there: one of every format and
some illegal ones. -/
def Obligations.SpecWordsDecodeAsWritten : Prop :=
  decode 0x0000 = .ok .nop ∧ decode 0x10FF = .ok (.gfmul 0xF 0xF) ∧ decode 0x104E = .ok (.gfmul 0x4 0xE) ∧
  decode 0x7003 = .ok (.addrk 3) ∧ decode 0x8000 = .ok .keyexp ∧ decode 0x9000 = .ok .enc ∧ decode 0xA000 = .ok .dec ∧
  decode 0xB0FF = .ok (.ecbEnc 255) ∧ decode 0xC002 = .ok (.ecbDec 2) ∧ decode 0xD002 = .ok (.cbcEnc false 2) ∧
  decode 0xD1FF = .ok (.cbcEnc true 255) ∧ decode 0xE003 = .ok (.cbcDec 3) ∧
  decode 0x0001 = .error .reservedBitSet ∧ decode 0x1100 = .error .reservedBitSet ∧ decode 0x7004 = .error .reservedBitSet ∧
  decode 0xB100 = .error .reservedBitSet ∧ decode 0xD200 = .error .reservedBitSet ∧ decode 0xF0AB = .error .reservedOpcode

/-! ## The multiplier, the codec and the key schedule -/

/-- 41_gf_arith.md section 1 (the inference of R59): `gf_mul` is the product of the polynomials reduced modulo x^4 + x + 1, and
obeys the field's laws. -/
def Obligations.GfMulIsMultiplicationInTheField : Prop :=
  (∀ a b : Nibble, ∃ q : Nibble,
    polyMul (a.setWidth 8) (b.setWidth 8) = polyMul 0x13 (q.setWidth 8) ^^^ (gfMul a b).setWidth 8) ∧
  (∀ a b : Nibble, gfMul a b = gfMul b a) ∧ (∀ a : Nibble, gfMul 0 a = 0 ∧ gfMul 1 a = a) ∧
  (∀ a b c : Nibble, gfMul a (b ^^^ c) = gfMul a b ^^^ gfMul a c) ∧
  (∀ a b c : Nibble, gfMul a (gfMul b c) = gfMul (gfMul a b) c) ∧
  (∀ a : Nibble, a ≠ 0 → ∃ b : Nibble, gfMul a b = 1 ∧ ∀ b' : Nibble, gfMul a b' = 1 → b' = b)

/-- R63, R64, R65: the nibbles of a block, most-significant first; the column-major matrix; its re-flattening, the inverse. -/
def Obligations.BlockCodecFillsColumnsAndLosesNothing : Prop :=
  (∀ w : Block, nibbles w = [w.extractLsb' 12 4, w.extractLsb' 8 4, w.extractLsb' 4 4, w.extractLsb' 0 4]) ∧
  (∀ n0 n1 n2 n3 : Nibble, toM (n0 ++ n1 ++ n2 ++ n3) = { m00 := n0, m01 := n2, m10 := n1, m11 := n3 }) ∧
  (∀ m : NibbleMatrix, fromM m = m.m00 ++ m.m10 ++ m.m01 ++ m.m11) ∧
  (∀ w : Block, fromM (toM w) = w) ∧ (∀ m : NibbleMatrix, toM (fromM m) = m)

/-- R72 (with RotWord, SubWord and RCON of R69 to R71 written out): the eight key-schedule words of every key under every S-box. -/
def Obligations.KeyScheduleFollowsTheRecurrence : Prop :=
  ∀ (S : SBox) (k : Block), ∃ W : Vector KWord 8, keyExpand S k = W ∧
    W[0] = k.extractLsb' 8 8 ∧ W[1] = k.extractLsb' 0 8 ∧
    W[2] = W[0] ^^^ ((S (W[1].extractLsb' 0 4) ++ S (W[1].extractLsb' 4 4)) ^^^ 0x10#8) ∧ W[3] = W[1] ^^^ W[2] ∧
    W[4] = W[2] ^^^ ((S (W[3].extractLsb' 0 4) ++ S (W[3].extractLsb' 4 4)) ^^^ 0x20#8) ∧ W[5] = W[3] ^^^ W[4] ∧
    W[6] = W[4] ^^^ ((S (W[5].extractLsb' 0 4) ++ S (W[5].extractLsb' 4 4)) ^^^ 0x40#8) ∧ W[7] = W[5] ^^^ W[6]

/-- 43_key_schedule.md section 2 (the inference of R73 and the corner of R76): the first round key is the key, and no
expansion is the all-zero reset state. -/
def Obligations.FirstRoundKeyIsTheKey : Prop :=
  ∀ (S : SBox) (k : Block), roundKey (keyExpand S k) 0 = k ∧ keyExpand S k ≠ State.reset.w

/-- R25: RKr reads as W[2r] : W[2r+1]; RK0..RK3 change exactly when W changes; after reset they read 0x0000. -/
def Obligations.RoundKeysAreAViewOfW : Prop :=
  (∀ s : State, s.status.busy = false →
    s.busRead 0x010 = s.w[0] ++ s.w[1] ∧ s.busRead 0x011 = s.w[2] ++ s.w[3] ∧
    s.busRead 0x012 = s.w[4] ++ s.w[5] ∧ s.busRead 0x013 = s.w[6] ++ s.w[7]) ∧
  (∀ s t : State, (∀ r : Fin 4, roundKey s.w r = roundKey t.w r) ↔ s.w = t.w) ∧
  (∀ r : Fin 4, roundKey State.reset.w r = 0x0000)

/-! ## Single-block commands. Each equation gives the whole next state: a field it does not name is unchanged. -/

/-- R113: NOP only completes; 0x0001 to 0x0FFF are illegal; STATUS then reads 0x0002. -/
def Obligations.NopOnlyCompletes : Prop :=
  decode 0x0000 = .ok .nop ∧ (∀ x : BitVec 12, x ≠ 0 → ∃ e, decode (0x0#4 ++ x) = .error e) ∧
  (∀ s : State, exec .nop s = .next { s with status := ended 0 }) ∧ (ended 0).word = 0x0002

/-- R62: GFMUL a, b. -/
def Obligations.GfmulWritesTheProduct : Prop :=
  (∀ a b : Nibble, decode (0x10#8 ++ a ++ b) = .ok (.gfmul a b)) ∧
  (∀ (x a b : Nibble), x ≠ 0 → ∃ e, decode (0x1#4 ++ x ++ a ++ b) = .error e) ∧
  (∀ (a b : Nibble) (s : State), exec (.gfmul a b) s = .next { s with dout := 0#12 ++ gfMul a b, status := ended 0 }) ∧
  (∀ a : Nibble, gfMul 0 a = 0 ∧ gfMul a 0 = 0 ∧ gfMul 1 a = a) ∧ gfMul 8 2 = 3 ∧
  decode 0x104E = .ok (.gfmul 0x4 0xE) ∧ (0#12 ++ gfMul 0x4 0xE) = 0x000D#16

/-- R88: SUBNIB. -/
def Obligations.SubnibSubstitutesEachNibble : Prop :=
  decode 0x2000 = .ok .subnib ∧ (∀ x : BitVec 12, x ≠ 0 → ∃ e, decode (0x2#4 ++ x) = .error e) ∧
  (∀ (s : State) (n0 n1 n2 n3 : Nibble), s.din = n0 ++ n1 ++ n2 ++ n3 →
    exec .subnib s = .next { s with dout := sbox n0 ++ sbox n1 ++ sbox n2 ++ sbox n3, status := ended 0 }) ∧
  (∀ S : SBox, subN S 0x0000 = S 0 ++ S 0 ++ S 0 ++ S 0) ∧
  (∀ S : SBox, (∀ x, S x = candidateP x) → subN S 0x0123 = 0xE4D1)

/-- R89: INVSUBNIB; it undoes SUBNIB's DOUT. -/
def Obligations.InvsubnibSubstitutesBack : Prop :=
  decode 0x3000 = .ok .invsubnib ∧ (∀ x : BitVec 12, x ≠ 0 → ∃ e, decode (0x3#4 ++ x) = .error e) ∧
  (∀ (s : State) (n0 n1 n2 n3 : Nibble), s.din = n0 ++ n1 ++ n2 ++ n3 →
    exec .invsubnib s =
      .next { s with dout := sbox.symm n0 ++ sbox.symm n1 ++ sbox.symm n2 ++ sbox.symm n3, status := ended 0 }) ∧
  (∀ s t : State, exec .subnib s = .next t →
    exec .invsubnib { t with din := t.dout } = .next { t with din := t.dout, dout := s.din, status := ended 0 }) ∧
  (∀ S : SBox, (∀ x, S x = candidateP x) → invSubN S 0xE4D1 = 0x0123)

/-- R90: SHIFTROWS swaps nibbles 1 and 3. -/
def Obligations.ShiftrowsSwapsNibblesOneAndThree : Prop :=
  decode 0x4000 = .ok .shiftrows ∧ (∀ x : BitVec 12, x ≠ 0 → ∃ e, decode (0x4#4 ++ x) = .error e) ∧
  (∀ s : State, exec .shiftrows s = .next { s with
    dout := s.din.extractLsb' 12 4 ++ s.din.extractLsb' 0 4 ++ s.din.extractLsb' 4 4 ++ s.din.extractLsb' 8 4,
    status := ended 0 }) ∧
  (∀ w : Block, w.extractLsb' 8 4 = w.extractLsb' 0 4 → sr w = w) ∧ sr 0x1234 = 0x1432

/-- R91: MIXCOL. -/
def Obligations.MixcolMultipliesTheColumns : Prop :=
  decode 0x5000 = .ok .mixcol ∧ (∀ x : BitVec 12, x ≠ 0 → ∃ e, decode (0x5#4 ++ x) = .error e) ∧
  (∀ (s : State) (n0 n1 n2 n3 : Nibble), s.din = n0 ++ n1 ++ n2 ++ n3 →
    exec .mixcol s = .next { s with
      dout := (n0 ^^^ gfMul 4 n1) ++ (gfMul 4 n0 ^^^ n1) ++ (n2 ^^^ gfMul 4 n3) ++ (gfMul 4 n2 ^^^ n3), status := ended 0 }) ∧
  mc 0x0000 = 0x0000 ∧ mc 0xFFFF = 0x6666 ∧ mc 0x1000 = 0x1400 ∧ mc 0x0100 = 0x4100 ∧ mc 0x1234 = 0x9608 ∧
  (∀ c : BitVec 8, ∃ c' : BitVec 8, mc (c ++ 0#8) = c' ++ 0#8 ∧ mc (0#8 ++ c) = 0#8 ++ c')

/-- R92: INVMIXCOL. -/
def Obligations.InvmixcolMultipliesTheColumnsBack : Prop :=
  decode 0x6000 = .ok .invmixcol ∧ (∀ x : BitVec 12, x ≠ 0 → ∃ e, decode (0x6#4 ++ x) = .error e) ∧
  (∀ (s : State) (n0 n1 n2 n3 : Nibble), s.din = n0 ++ n1 ++ n2 ++ n3 →
    exec .invmixcol s = .next { s with
      dout := (gfMul 9 n0 ^^^ gfMul 2 n1) ++ (gfMul 2 n0 ^^^ gfMul 9 n1) ++ (gfMul 9 n2 ^^^ gfMul 2 n3) ++
        (gfMul 2 n2 ^^^ gfMul 9 n3), status := ended 0 }) ∧
  imc 0xFFFF = 0x3333 ∧ imc 0x1000 = 0x9200 ∧ imc 0x9608 = 0x1234

/-- R93: ADDRK r xors the current round key; it expands nothing, so after reset it returns DIN, and after KEYEXP with KEY =
0xA73B it xors 0xA73B for r = 0. -/
def Obligations.AddrkXorsTheCurrentRoundKey : Prop :=
  (∀ r : BitVec 2, decode (0x7#4 ++ 0#10 ++ r) = .ok (.addrk r)) ∧
  (∀ (x : BitVec 10) (r : BitVec 2), x ≠ 0 → ∃ e, decode (0x7#4 ++ x ++ r) = .error e) ∧
  (∀ s : State,
    exec (.addrk 0) s = .next { s with dout := s.din ^^^ (s.w[0] ++ s.w[1]), status := ended 0 } ∧
    exec (.addrk 1) s = .next { s with dout := s.din ^^^ (s.w[2] ++ s.w[3]), status := ended 0 } ∧
    exec (.addrk 2) s = .next { s with dout := s.din ^^^ (s.w[4] ++ s.w[5]), status := ended 0 } ∧
    exec (.addrk 3) s = .next { s with dout := s.din ^^^ (s.w[6] ++ s.w[7]), status := ended 0 }) ∧
  (∀ (r : BitVec 2) (s : State), s.w = State.reset.w → exec (.addrk r) s = .next { s with dout := s.din, status := ended 0 }) ∧
  (∀ s t : State, s.key = 0xA73B → s.din = 0x6F6B → exec .keyexp s = .next t →
    exec (.addrk 0) t = .next { t with dout := 0xC850, status := ended 0 })

/-- R76: KEYEXP writes the eight words of KeyExpand(KEY) and nothing else. -/
def Obligations.KeyexpWritesTheSchedule : Prop :=
  decode 0x8000 = .ok .keyexp ∧ (∀ x : BitVec 12, x ≠ 0 → ∃ e, decode (0x8#4 ++ x) = .error e) ∧
  (∀ s : State, exec .keyexp s = .next { s with w := keyExpand sbox s.key, status := ended 0 }) ∧
  (∀ S : SBox, (keyExpand S 0x0000)[2] = (S 0 ^^^ 1) ++ S 0 ∧ (keyExpand S 0x0000)[2] ≠ 0x00#8) ∧
  (∀ S : SBox, (keyExpand S 0xA73B)[0] = 0xA7#8 ∧ (keyExpand S 0xA73B)[1] = 0x3B#8) ∧
  (∀ S : SBox, (∀ x, S x = candidateP x) → keyExpand S 0xA73B = #v[0xA7, 0x3B, 0x76, 0x4D, 0xC4, 0x89, 0x27, 0xAE])

/-- R85: the encryption pipeline: round 0 key, two full rounds, a last round without MixColumns. -/
def Obligations.EncryptIsTheThreeRoundPipeline : Prop :=
  ∀ (S : SBox) (p : Block) (W : Vector KWord 8),
    encrypt S p W =
      sr (subN S (mc (sr (subN S (mc (sr (subN S (p ^^^ (W[0] ++ W[1])))) ^^^ (W[2] ++ W[3])))) ^^^ (W[4] ++ W[5]))) ^^^ (W[6] ++ W[7])

/-- R86: the decryption pipeline. -/
def Obligations.DecryptIsTheThreeRoundPipeline : Prop :=
  ∀ (S : SBox) (c : Block) (W : Vector KWord 8),
    decrypt S c W =
      invSubN S (sr (imc (invSubN S (sr (imc (invSubN S (sr (c ^^^ (W[6] ++ W[7]))) ^^^ (W[4] ++ W[5])))) ^^^ (W[2] ++ W[3])))) ^^^
        (W[0] ++ W[1])

/-- R94: ENC expands the key, encrypts DIN into DOUT, and leaves W holding the expansion. -/
def Obligations.EncEncryptsDin : Prop :=
  decode 0x9000 = .ok .enc ∧ (∀ x : BitVec 12, x ≠ 0 → ∃ e, decode (0x9#4 ++ x) = .error e) ∧
  (∀ s : State, exec .enc s = .next { s with
    w := keyExpand sbox s.key, dout := encrypt sbox s.din (keyExpand sbox s.key), status := ended 0 }) ∧
  (∀ S : SBox, (∀ x, S x = candidateP x) → encrypt S 0x6F6B (keyExpand S 0xA73B) = 0xB4DF) ∧
  (∀ S : SBox, (∀ x, S x = candidateS x) → encrypt S 0x6F6B (keyExpand S 0xA73B) = 0x683C)

/-- R95: DEC; after ENC with DIN set to its DOUT it returns the original block. -/
def Obligations.DecDecryptsDin : Prop :=
  decode 0xA000 = .ok .dec ∧ (∀ x : BitVec 12, x ≠ 0 → ∃ e, decode (0xA#4 ++ x) = .error e) ∧
  (∀ s : State, exec .dec s = .next { s with
    w := keyExpand sbox s.key, dout := decrypt sbox s.din (keyExpand sbox s.key), status := ended 0 }) ∧
  (∀ s t : State, exec .enc s = .next t →
    exec .dec { t with din := t.dout } = .next { t with din := t.dout, dout := s.din, status := ended 0 }) ∧
  (∀ S : SBox, (∀ x, S x = candidateP x) → decrypt S 0xB4DF (keyExpand S 0xA73B) = 0x6F6B)

/-- 44_round_transform.md section 2 (the inferences of R79, R82, R84 and the self-inverses of R80, R83): on every block,
each primitive is undone by its inverse, and ShiftRows commutes with the S-box stages. -/
def Obligations.RoundPrimitivesAreUndoneByTheirInverses : Prop :=
  (∀ (S : SBox) (w : Block), invSubN S (subN S w) = w ∧ subN S (invSubN S w) = w) ∧
  (∀ w : Block, sr (sr w) = w) ∧ (∀ w : Block, imc (mc w) = w ∧ mc (imc w) = w) ∧
  (∀ w k : Block, ark (ark w k) k = w) ∧
  (∀ (S : SBox) (w : Block), sr (subN S w) = subN S (sr w) ∧ sr (invSubN S w) = invSubN S (sr w))

/-- 44_round_transform.md section 3 (the inference of R87): for every S-box, key and block, decryption undoes encryption and
encryption undoes decryption. -/
def Obligations.DecryptAndEncryptUndoEachOther : Prop :=
  ∀ (S : SBox) (k p : Block),
    decrypt S (encrypt S p (keyExpand S k)) (keyExpand S k) = p ∧ encrypt S (decrypt S p (keyExpand S k)) (keyExpand S k) = p

/-! ## Message commands -/

/-- R97: the count check of each message command comes before everything else: ALIGN, and no W write, no IV draw, no OUT
write. -/
def Obligations.TooFewBlocksEndsWithAlign : Prop :=
  (∀ s : State, exec (.ecbEnc 0) s = .next { s with status := ended 2 } ∧
    exec (.ecbDec 0) s = .next { s with status := ended 2 } ∧
    exec (.cbcEnc false 0) s = .next { s with status := ended 2 } ∧
    exec (.cbcEnc true 0) s = .next { s with status := ended 2 }) ∧
  (∀ (s : State) (n : BitVec 8), n < 2 → exec (.cbcDec n) s = .next { s with status := ended 2 })

/-- R101: ECB_ENC n encrypts IN[0..n-1] into OUT[0..n-1], block by block. -/
def Obligations.EcbEncEncryptsEachBlock : Prop :=
  (∀ n : BitVec 8, decode (0xB0#8 ++ n) = .ok (.ecbEnc n)) ∧
  (∀ (x : BitVec 4) (n : BitVec 8), x ≠ 0 → ∃ e, decode (0xB#4 ++ x ++ n) = .error e) ∧
  (∀ s : State, exec (.ecbEnc 0) s = .next { s with status := ended 2 }) ∧
  (∀ (s : State) (n : BitVec 8), n ≠ 0 → ∃ t, exec (.ecbEnc n) s = .next t ∧
    t = { s with w := keyExpand sbox s.key, mem := t.mem, status := ended 0 } ∧
    (∀ j, j < n.toNat → t.outWord j = encrypt sbox (s.inWord j) (keyExpand sbox s.key)) ∧
    (∀ j k, j < n.toNat → k < n.toNat → s.inWord j = s.inWord k → t.outWord j = t.outWord k) ∧
    (∀ a, ¬ (0x200 ≤ a ∧ a < 0x200 + n.toNat) → t.bufferWord a = s.bufferWord a)) ∧
  (∀ S : SBox, (∀ x, S x = candidateP x) → encrypt S 0x6F6B (keyExpand S 0xA73B) = 0xB4DF)

/-- R102: ECB_DEC n decrypts IN[0..n-1] into OUT[0..n-1]; on the OUT of ECB_ENC n copied into IN it restores the plaintext. -/
def Obligations.EcbDecDecryptsEachBlock : Prop :=
  (∀ n : BitVec 8, decode (0xC0#8 ++ n) = .ok (.ecbDec n)) ∧
  (∀ (x : BitVec 4) (n : BitVec 8), x ≠ 0 → ∃ e, decode (0xC#4 ++ x ++ n) = .error e) ∧
  (∀ s : State, exec (.ecbDec 0) s = .next { s with status := ended 2 }) ∧
  (∀ (s : State) (n : BitVec 8), n ≠ 0 → ∃ t, exec (.ecbDec n) s = .next t ∧
    t = { s with w := keyExpand sbox s.key, mem := t.mem, status := ended 0 } ∧
    (∀ j, j < n.toNat → t.outWord j = decrypt sbox (s.inWord j) (keyExpand sbox s.key)) ∧
    (∀ a, ¬ (0x200 ≤ a ∧ a < 0x200 + n.toNat) → t.bufferWord a = s.bufferWord a)) ∧
  (∀ (s t u : State) (n : BitVec 8), n ≠ 0 → exec (.ecbEnc n) s = .next t → u.key = s.key →
    (∀ j, j < n.toNat → u.inWord j = t.outWord j) →
    ∃ v, exec (.ecbDec n) u = .next v ∧ ∀ j, j < n.toNat → v.outWord j = s.inWord j) ∧
  (∀ S : SBox, (∀ x, S x = candidateP x) →
    decrypt S 0xB4DF (keyExpand S 0xA73B) = 0x6F6B ∧ decrypt S 0x748A (keyExpand S 0xA73B) = 0x2D3B)

/-- 45_chaining_modes.md section 3 (R104 without its examples; which draw a generated IV is, is the model's choice, log 2):
OUT[0] is the IV, OUT[j+1] encrypts IN[j] xor OUT[j]; g = 1 writes the drawn value to IV and takes one draw, g = 0 none. -/
def Obligations.CbcEncChainsTheCiphertext : Prop :=
  (∀ (g : Bool) (n : BitVec 8), decode (0xD#4 ++ 0#3 ++ BitVec.ofBool g ++ n) = .ok (.cbcEnc g n)) ∧
  (∀ (x : BitVec 3) (g : Bool) (n : BitVec 8), x ≠ 0 → ∃ e, decode (0xD#4 ++ x ++ BitVec.ofBool g ++ n) = .error e) ∧
  (∀ (s : State) (g : Bool) (n : BitVec 8), n ≠ 0 → ∃ t, exec (.cbcEnc g n) s = .next t ∧
    t = { s with
      iv := if g then Config.draw16 s.ivDraws else s.iv, ivDraws := if g then s.ivDraws + 1 else s.ivDraws,
      w := keyExpand sbox s.key, mem := t.mem, status := ended 0 } ∧
    t.outWord 0 = t.iv ∧
    (∀ j, j < n.toNat → t.outWord (j + 1) = encrypt sbox (s.inWord j ^^^ t.outWord j) (keyExpand sbox s.key)) ∧
    (∀ a, ¬ (0x200 ≤ a ∧ a ≤ 0x200 + n.toNat) → t.bufferWord a = s.bufferWord a))

/-- R105: CBC_DEC n takes the IV from IN[0] and chains the input ciphertext; IV and DOUT are unchanged. -/
def Obligations.CbcDecChainsTheInputCiphertext : Prop :=
  (∀ n : BitVec 8, decode (0xE0#8 ++ n) = .ok (.cbcDec n)) ∧
  (∀ (x : BitVec 4) (n : BitVec 8), x ≠ 0 → ∃ e, decode (0xE#4 ++ x ++ n) = .error e) ∧
  (∀ s : State, exec (.cbcDec 0) s = .next { s with status := ended 2 } ∧ exec (.cbcDec 1) s = .next { s with status := ended 2 }) ∧
  (∀ (s : State) (n : BitVec 8), 2 ≤ n.toNat → ∃ t, exec (.cbcDec n) s = .next t ∧
    t = { s with w := keyExpand sbox s.key, mem := t.mem, status := ended 0 } ∧
    (∀ j, j < n.toNat - 1 → t.outWord j = decrypt sbox (s.inWord (j + 1)) (keyExpand sbox s.key) ^^^ s.inWord j) ∧
    (∀ a, ¬ (0x200 ≤ a ∧ a < 0x200 + (n.toNat - 1)) → t.bufferWord a = s.bufferWord a)) ∧
  (∀ S : SBox, (∀ x, S x = candidateP x) →
    decrypt S 0x0148 (keyExpand S 0xA73B) ^^^ 0x1234 = 0x6F6B ∧ decrypt S 0x0505 (keyExpand S 0xA73B) ^^^ 0x0148 = 0x6F6B)

/-- 45_chaining_modes.md section 3 (the inference of R106): CBC_DEC n+1 on the OUT of CBC_ENC n restores the message, for
every key, IV (supplied or generated) and n in 1..254. -/
def Obligations.CbcDecOfCbcEncRestoresTheMessage : Prop :=
  ∀ (s t u : State) (g : Bool) (n m : BitVec 8), 1 ≤ n.toNat → m.toNat = n.toNat + 1 → exec (.cbcEnc g n) s = .next t →
    u.key = s.key → (∀ j, j ≤ n.toNat → u.inWord j = t.outWord j) →
    ∃ v, exec (.cbcDec m) u = .next v ∧ ∀ j, j < n.toNat → v.outWord j = s.inWord j

/-- 45_chaining_modes.md section 3 and 90_conflicts.md C6: for a repeated plaintext block the ciphertext repeats exactly when it
equals its own chain value. -/
def Obligations.CbcRepeatsExactlyAtAFixedPoint : Prop :=
  ∀ (s t : State) (g : Bool) (n : BitVec 8) (j : Nat), j + 1 < n.toNat → exec (.cbcEnc g n) s = .next t →
    s.inWord (j + 1) = s.inWord j → (t.outWord (j + 2) = t.outWord (j + 1) ↔ t.outWord (j + 1) = t.outWord j)

/-- 47_host_text_interface.md section 2 (the inference of R119): a CBC encryption split in two runs, the second with IV the last
ciphertext word of the first, gives the words of the one long run. -/
def Obligations.CbcEncSplitsWithTheCarriedChainValue : Prop :=
  ∀ (s t u u' v v' : State) (g : Bool) (k m n : BitVec 8), 1 ≤ m.toNat → 1 ≤ n.toNat → k.toNat = m.toNat + n.toNat →
    exec (.cbcEnc g k) s = .next t →
    u.key = s.key → u.iv = s.iv → u.ivDraws = s.ivDraws → (∀ j, j < m.toNat → u.inWord j = s.inWord j) →
    exec (.cbcEnc g m) u = .next u' →
    v.key = s.key → v.iv = u'.outWord m.toNat → (∀ j, j < n.toNat → v.inWord j = s.inWord (m.toNat + j)) →
    exec (.cbcEnc false n) v = .next v' →
    (∀ j, j ≤ m.toNat → u'.outWord j = t.outWord j) ∧ (∀ j, j ≤ n.toNat → v'.outWord j = t.outWord (m.toNat + j))

/-! ## Completion, errors and the write set of each command -/

/-- A step runs the decoded command: with a command pending and the host idle or waiting (or the completion coming first), step
is exec of the command CMD spells; an illegal word ends with ERR = ILLEGAL (46_control.md section 1; when the completion
comes is the model's free choice, log 5). -/
def Obligations.StepRunsTheDecodedCommand : Prop :=
  (∀ (s : State) (i : Instr), s.status.busy = true →
    (s.host = [] ∨ (∃ rest, s.host = .wait :: rest) ∨ Config.completesFirst s.busEvents = true) →
    decode s.cmd = .ok i → step s = exec i s) ∧
  (∀ (s : State) (e : DecodeError), s.status.busy = true →
    (s.host = [] ∨ (∃ rest, s.host = .wait :: rest) ∨ Config.completesFirst s.busEvents = true) →
    decode s.cmd = .error e → step s = .next { s with status := ended 3 })

/-- 20_memory.md section 5, 60_exceptions.md section 5 (the scheduling is the model's, log 5 and log 6): idle, the next host
event is served, or nothing happens; with a command pending a host event is served or the command completes. -/
def Obligations.StepServesTheHostOrCompletes : Prop :=
  (∀ s : State, s.status.busy = false → s.host = [] → step s = .next s) ∧
  (∀ (s : State) (e : HostEvent) (rest : List HostEvent), s.status.busy = false → s.host = e :: rest →
    step s = .next { s.access e with host := rest, busEvents := s.busEvents + 1 }) ∧
  (∀ (s : State) (e : HostEvent) (rest : List HostEvent), s.status.busy = true → s.host = e :: rest →
    step s = s.complete ∨ step s = .next { s.access e with host := rest, busEvents := s.busEvents + 1 })

/-- 93_implementation_defined.md part 1 ("No behaviour of the core is `fault` or `stuck`") and 46_control.md section 2: every
command completes and leaves the core idle with ERR = NONE or ALIGN, and every step answers a next state. -/
def Obligations.EveryCommandCompletesAndNoStepStops : Prop :=
  (∀ (i : Instr) (s : State), ∃ t, exec i s = .next t ∧ (t.status = ended 0 ∨ t.status = ended 2)) ∧
  (∀ s : State, ∃ t, step s = .next t)

/-- 46_control.md section 1 (R110): a pending command always completes unless a reset comes; here within as many steps as there
are host events ahead, and one (the bound is the model's, log 5). -/
def Obligations.PendingCommandCompletesWithinBound : Prop :=
  ∀ s : State, s.status.busy = true → s.noResetAhead = true →
    ∃ k t, k ≤ s.host.length + 1 ∧ Sys2Proof.core.run k s = .next t ∧ t.status.busy = false ∧ t.status.done = true

/-- 60_exceptions.md section 1 (R122, R123): a completion that ends with an error writes STATUS only. -/
def Obligations.ErrorsWriteOnlyStatus : Prop :=
  ∀ s t : State, s.complete = .next t → t.status.err ≠ 0 →
    t = { s with status := ended t.status.err } ∧ (t.status.err = 2 ∨ t.status.err = 3)

/-- 60_exceptions.md section 1 (the inference of R124): the outcome is a function of the command word alone. -/
def Obligations.OutcomeDependsOnTheCommandWordAlone : Prop :=
  ∀ s s' t t' : State, s.cmd = s'.cmd → s.complete = .next t → s'.complete = .next t' → t.status = t'.status

/-- 46_control.md section 1 (the table of R111): what no command writes, and which commands write DOUT, W, IV and OUT. -/
def Obligations.CommandsWriteOnlyTheirRegisters : Prop :=
  ∀ (i : Instr) (s t : State), exec i s = .next t →
    (t.cmd = s.cmd ∧ t.key = s.key ∧ t.din = s.din ∧ t.host = s.host ∧ t.noted = s.noted ∧ t.busEvents = s.busEvents ∧
      t.resets = s.resets) ∧
    (∀ a, ¬ (0x200 ≤ a ∧ a < 0x300) → t.bufferWord a = s.bufferWord a) ∧
    (i ∈ [.nop, .keyexp] ∨ (∃ n, i = .ecbEnc n) ∨ (∃ n, i = .ecbDec n) ∨ (∃ g n, i = .cbcEnc g n) ∨ (∃ n, i = .cbcDec n) →
      t.dout = s.dout) ∧
    (i ∈ [.nop, .subnib, .invsubnib, .shiftrows, .mixcol, .invmixcol] ∨ (∃ a b, i = .gfmul a b) ∨ (∃ r, i = .addrk r) →
      t.w = s.w) ∧
    ((∀ n, i ≠ .cbcEnc true n) → t.iv = s.iv ∧ t.ivDraws = s.ivDraws) ∧
    ((∀ n, i ≠ .ecbEnc n) → (∀ n, i ≠ .ecbDec n) → (∀ g n, i ≠ .cbcEnc g n) → (∀ n, i ≠ .cbcDec n) →
      ∀ a, t.bufferWord a = s.bufferWord a)

/-! ## The host bus, status and reset -/

/-- R107: a CMD write while idle stores the word, sets BUSY, clears DONE and ERR, and changes nothing else, whatever the word;
while BUSY it is no issue. -/
def Obligations.CmdWriteIssues : Prop :=
  (∀ (s : State) (v : Block), s.status.busy = false → s.busWrite 0x000 v = { s with cmd := v, status := inFlight }) ∧
  (∀ (s : State) (v : Block), s.status.busy = true → s.busWrite 0x000 v = s)

/-- R38: MemRead and MemWrite at every address, with the value each location holds; the reads of R140's locations while
BUSY = 1 are left to that rule. -/
def Obligations.HostBusPrimitives : Prop :=
  (∀ (s : State) (a : BusAddr),
    (a = 0x000 → s.busRead a = s.cmd) ∧ (a = 0x001 → s.busRead a = s.status.word) ∧ (a = 0x002 → s.busRead a = s.key) ∧
    (a = 0x004 → s.busRead a = s.din) ∧
    (∀ i, i < 256 → a.toNat = 0x100 + i → s.busRead a = s.inWord i) ∧
    (s.status.busy = false →
      (a = 0x003 → s.busRead a = s.iv) ∧ (a = 0x005 → s.busRead a = s.dout) ∧
      (∀ i : Fin 8, a.toNat = 0x008 + i.val → s.busRead a = 0#8 ++ s.w[i.val]) ∧
      (∀ r : Fin 4, a.toNat = 0x010 + r.val → s.busRead a = roundKey s.w r) ∧
      (∀ i, i < 256 → a.toNat = 0x200 + i → s.busRead a = s.outWord i)) ∧
    (a.toNat = 0x006 ∨ a.toNat = 0x007 ∨ (0x014 ≤ a.toNat ∧ a.toNat < 0x100) ∨ 0x300 ≤ a.toNat → s.busRead a = 0x0000)) ∧
  (∀ (s : State) (a : BusAddr) (v : Block), s.busWrite a v =
    if s.status.busy = true then s
    else if a = 0x000 then { s with cmd := v, status := inFlight }
    else if a = 0x002 then { s with key := v }
    else if a = 0x003 then { s with iv := v }
    else if a = 0x004 then { s with din := v }
    else if 0x100 ≤ a.toNat ∧ a.toNat ≤ 0x1FF then s.setIn (a.toNat - 0x100) v
    else s)

/-- 10_state.md section 5 (R26): a host write of an IN word is read back, leaves every other buffer word as it read before, and
no command changes an IN word (that part: CommandsWriteOnlyTheirRegisters). -/
def Obligations.InWordsReadBackWhatTheHostWrote : Prop :=
  ∀ (s : State) (a : BusAddr) (v : Block), s.status.busy = false → 0x100 ≤ a.toNat → a.toNat < 0x200 →
    s.busWrite a v = { s with mem := (s.busWrite a v).mem } ∧ (s.busWrite a v).busRead a = v ∧
    ∀ b, b ≠ a.toNat → (s.busWrite a v).bufferWord b = s.bufferWord b

/-- R36: a reserved address reads 0x0000 and ignores writes; neither raises an error or changes STATUS. -/
def Obligations.ReservedAddressesReadZeroAndIgnoreWrites : Prop :=
  ∀ (s : State) (a : BusAddr) (v : Block),
    a.toNat = 0x006 ∨ a.toNat = 0x007 ∨ (0x014 ≤ a.toNat ∧ a.toNat < 0x100) ∨ 0x300 ≤ a.toNat →
    s.busRead a = 0x0000 ∧ s.busWrite a v = s

/-- R37: a host write to STATUS, DOUT, W, RK or OUT has no effect. -/
def Obligations.ReadOnlyLocationsIgnoreWrites : Prop :=
  ∀ (s : State) (a : BusAddr) (v : Block),
    a = 0x001 ∨ a = 0x005 ∨ (0x008 ≤ a.toNat ∧ a.toNat < 0x014) ∨ (0x200 ≤ a.toNat ∧ a.toNat < 0x300) →
    s.busWrite a v = s

/-- R139: while BUSY = 1 every host write is ignored, to every address; a command written then never reaches CMD. -/
def Obligations.WritesWhileBusyAreIgnored : Prop :=
  ∀ (s : State) (a : BusAddr) (v : Block), s.status.busy = true → s.busWrite a v = s

/-- 70_reset_and_hazards.md section 3 (R140 and the model's free value, log 3): in a sound state with BUSY = 1, STATUS reads
0x0001, CMD, KEY, DIN and IN read their values, and IV, DOUT, W, RK and OUT read the free value of this read. -/
def Obligations.ReadsWhileBusy : Prop :=
  ∀ s : State, s.Inv = true → s.status.busy = true →
    s.busRead 0x001 = 0x0001 ∧ s.busRead 0x000 = s.cmd ∧ s.busRead 0x002 = s.key ∧ s.busRead 0x004 = s.din ∧
    (∀ (a : BusAddr) (i : Nat), i < 256 → a.toNat = 0x100 + i → s.busRead a = s.inWord i) ∧
    (∀ a : BusAddr, a = 0x003 ∨ a = 0x005 ∨ (0x008 ≤ a.toNat ∧ a.toNat < 0x014) ∨ (0x200 ≤ a.toNat ∧ a.toNat < 0x300) →
      s.busRead a = Config.busyRead s.busEvents)

/-- 20_memory.md section 2 (R39): a read only adds to the host's notes, and a second read of any location that R140 does not
except returns the same value. -/
def Obligations.ReadsHaveNoSideEffect : Prop :=
  ∀ (s : State) (a : BusAddr) (rest : List HostEvent), s.host = .read a :: rest →
    s.serveHost = { s with noted := (a, s.busRead a) :: s.noted, host := rest, busEvents := s.busEvents + 1 } ∧
    ∀ b : BusAddr, s.status.busy = false ∨ (locate b).unsettled = false → s.serveHost.busRead b = s.busRead b

/-- R18: the fields of STATUS in the word the host reads, writes to it ignored, and reads without side effect. -/
def Obligations.StatusWordHoldsItsFields : Prop :=
  ∀ s : State,
    (s.busRead 0x001).extractLsb' 0 1 = BitVec.ofBool s.status.busy ∧ (s.busRead 0x001).extractLsb' 1 1 = BitVec.ofBool s.status.done ∧
    (s.busRead 0x001).extractLsb' 2 2 = 0 ∧ (s.busRead 0x001).extractLsb' 4 4 = s.status.err ∧
    (s.busRead 0x001).extractLsb' 8 8 = 0 ∧
    (∀ v, s.busWrite 0x001 v = s) ∧ (s.access (.read 0x001)).status = s.status ∧
    State.reset.status.word = 0x0000 ∧
    (∀ v, s.status.busy = false → (s.busWrite 0x000 v).status = inFlight) ∧
    (∀ t, s.complete = .next t → t.status.busy = false ∧ t.status.done = true)

/-- R135: reset, at power-on and whenever it is asserted, sets every register to its reset value, with no command pending. -/
def Obligations.ResetSetsEveryRegister : Prop :=
  ∀ r : State, r = State.reset ∨ (∃ s : State, r = s.access .reset) →
    r.cmd = 0 ∧ r.status.word = 0 ∧ r.key = 0 ∧ r.iv = 0 ∧ r.din = 0 ∧ r.dout = 0 ∧ (∀ i : Fin 8, r.w[i.val] = 0) ∧
    (∀ k : Fin 4, roundKey r.w k = 0x0000) ∧ r.status.busy = false ∧ r.status.done = false ∧ r.status.err = 0

/-- R136: a reset while BUSY = 1 abandons the pending command: whatever the command was, every register is as after reset, and
no IV is drawn. -/
def Obligations.ResetAbandonsThePendingCommand : Prop :=
  ∀ s r : State, s.status.busy = true → s.access .reset = r →
    r.status = State.reset.status ∧ r.cmd = State.reset.cmd ∧ r.key = State.reset.key ∧ r.iv = State.reset.iv ∧
    r.din = State.reset.din ∧ r.dout = State.reset.dout ∧ r.w = State.reset.w ∧ r.ivDraws = s.ivDraws

/-- 70_reset_and_hazards.md section 3 (the inference of R142): a KEY write leaves W, so ADDRK then uses the old round keys, and
ENC the new key. -/
def Obligations.KeyWriteLeavesTheRoundKeys : Prop :=
  ∀ (s : State) (v : Block) (r : BitVec 2), s.status.busy = false →
    s.busWrite 0x002 v = { s with key := v } ∧
    exec (.addrk r) (s.busWrite 0x002 v) = .next { s with key := v, dout := s.din ^^^ roundKey s.w r.toFin, status := ended 0 } ∧
    exec .enc (s.busWrite 0x002 v) = .next { s with
      key := v, w := keyExpand sbox v, dout := encrypt sbox s.din (keyExpand sbox v), status := ended 0 }

/-! ## Invariant -/

/-- 10_state.md section 2 (the inference of R19) and 20_memory.md section 2 (that of R40): every step from a sound state leads to
a sound state: STATUS stays one of the values of R19, and the buffers stay canonical and inside their windows. -/
def Obligations.StepKeepsTheStateSound : Prop :=
  ∀ s t : State, s.Inv = true → step s = .next t → t.Inv = true

/-- 10_state.md section 2 (the inference of R19) and 70_reset_and_hazards.md section 1: the state after reset is sound. Also
after a command word is placed: that placed state is the model's own (log 7), and stands for the state after a CMD write while
idle (46_control.md section 1, R107) with WAIT next. -/
def Obligations.ResetIsSound : Prop :=
  State.reset.Inv = true ∧ ∀ nbits w, (State.reset.withFetchWord nbits w).Inv = true

/-! ## The host text layer -/

/-- 47_host_text_interface.md section 1 (R114): text and word stand for each other, and output is the input in upper case. -/
def Obligations.BlockTextRoundTrips : Prop :=
  (∀ w : Block, (blockText w).length = 4 ∧ parseBlock (blockText w) = some w) ∧
  (∀ (t : Text) (w : Block), parseBlock t = some w → blockText w = t.map Char.toUpper)

/-- R116: the alignment error, before any command is issued and whatever the other texts are. -/
def Obligations.UnalignedTextIsAnAlignmentError : Prop :=
  (∀ (t k : Text) (iv : Option Text), t.length = 0 ∨ t.length % 4 ≠ 0 →
    (TextCall.encryptEcb t k).events = .error .alignmentError ∧ (TextCall.decryptEcb t k).events = .error .alignmentError ∧
    (TextCall.encryptCbc t k iv).events = .error .alignmentError) ∧
  (∀ t k : Text, t.length < 8 ∨ t.length % 4 ≠ 0 → (TextCall.decryptCbc t k).events = .error .alignmentError)
end

