-- ==== Sys2Proof/Laws/State.lean ====
section
/-! SUPPORT. What every update of State leaves in every field: one lemma per field per update, so that no later proof unfolds
a record update; and what each update leaves in the buffers. -/

namespace Sys2Proof.Machine

@[simp] theorem State.setIn_cmd (s : State) (i : Nat) (v : Block) : (s.setIn i v).cmd = s.cmd := rfl
@[simp] theorem State.setIn_status (s : State) (i : Nat) (v : Block) : (s.setIn i v).status = s.status := rfl
@[simp] theorem State.setIn_key (s : State) (i : Nat) (v : Block) : (s.setIn i v).key = s.key := rfl
@[simp] theorem State.setIn_iv (s : State) (i : Nat) (v : Block) : (s.setIn i v).iv = s.iv := rfl
@[simp] theorem State.setIn_din (s : State) (i : Nat) (v : Block) : (s.setIn i v).din = s.din := rfl
@[simp] theorem State.setIn_dout (s : State) (i : Nat) (v : Block) : (s.setIn i v).dout = s.dout := rfl
@[simp] theorem State.setIn_w (s : State) (i : Nat) (v : Block) : (s.setIn i v).w = s.w := rfl
@[simp] theorem State.setIn_mem (s : State) (i : Nat) (v : Block) : (s.setIn i v).mem = s.mem.set (0x100 + i) v := rfl
@[simp] theorem State.setIn_host (s : State) (i : Nat) (v : Block) : (s.setIn i v).host = s.host := rfl
@[simp] theorem State.setIn_noted (s : State) (i : Nat) (v : Block) : (s.setIn i v).noted = s.noted := rfl
@[simp] theorem State.setIn_busEvents (s : State) (i : Nat) (v : Block) : (s.setIn i v).busEvents = s.busEvents := rfl
@[simp] theorem State.setIn_ivDraws (s : State) (i : Nat) (v : Block) : (s.setIn i v).ivDraws = s.ivDraws := rfl
@[simp] theorem State.setIn_resets (s : State) (i : Nat) (v : Block) : (s.setIn i v).resets = s.resets := rfl

@[simp] theorem State.setOut_cmd (s : State) (i : Nat) (v : Block) : (s.setOut i v).cmd = s.cmd := rfl
@[simp] theorem State.setOut_status (s : State) (i : Nat) (v : Block) : (s.setOut i v).status = s.status := rfl
@[simp] theorem State.setOut_key (s : State) (i : Nat) (v : Block) : (s.setOut i v).key = s.key := rfl
@[simp] theorem State.setOut_iv (s : State) (i : Nat) (v : Block) : (s.setOut i v).iv = s.iv := rfl
@[simp] theorem State.setOut_din (s : State) (i : Nat) (v : Block) : (s.setOut i v).din = s.din := rfl
@[simp] theorem State.setOut_dout (s : State) (i : Nat) (v : Block) : (s.setOut i v).dout = s.dout := rfl
@[simp] theorem State.setOut_w (s : State) (i : Nat) (v : Block) : (s.setOut i v).w = s.w := rfl
@[simp] theorem State.setOut_mem (s : State) (i : Nat) (v : Block) : (s.setOut i v).mem = s.mem.set (0x200 + i) v := rfl
@[simp] theorem State.setOut_host (s : State) (i : Nat) (v : Block) : (s.setOut i v).host = s.host := rfl
@[simp] theorem State.setOut_noted (s : State) (i : Nat) (v : Block) : (s.setOut i v).noted = s.noted := rfl
@[simp] theorem State.setOut_busEvents (s : State) (i : Nat) (v : Block) : (s.setOut i v).busEvents = s.busEvents := rfl
@[simp] theorem State.setOut_ivDraws (s : State) (i : Nat) (v : Block) : (s.setOut i v).ivDraws = s.ivDraws := rfl
@[simp] theorem State.setOut_resets (s : State) (i : Nat) (v : Block) : (s.setOut i v).resets = s.resets := rfl

@[simp] theorem State.setDout_cmd (s : State) (v : Block) : (s.setDout v).cmd = s.cmd := rfl
@[simp] theorem State.setDout_status (s : State) (v : Block) : (s.setDout v).status = s.status := rfl
@[simp] theorem State.setDout_key (s : State) (v : Block) : (s.setDout v).key = s.key := rfl
@[simp] theorem State.setDout_iv (s : State) (v : Block) : (s.setDout v).iv = s.iv := rfl
@[simp] theorem State.setDout_din (s : State) (v : Block) : (s.setDout v).din = s.din := rfl
@[simp] theorem State.setDout_dout (s : State) (v : Block) : (s.setDout v).dout = v := rfl
@[simp] theorem State.setDout_w (s : State) (v : Block) : (s.setDout v).w = s.w := rfl
@[simp] theorem State.setDout_mem (s : State) (v : Block) : (s.setDout v).mem = s.mem := rfl
@[simp] theorem State.setDout_host (s : State) (v : Block) : (s.setDout v).host = s.host := rfl
@[simp] theorem State.setDout_noted (s : State) (v : Block) : (s.setDout v).noted = s.noted := rfl
@[simp] theorem State.setDout_busEvents (s : State) (v : Block) : (s.setDout v).busEvents = s.busEvents := rfl
@[simp] theorem State.setDout_ivDraws (s : State) (v : Block) : (s.setDout v).ivDraws = s.ivDraws := rfl
@[simp] theorem State.setDout_resets (s : State) (v : Block) : (s.setDout v).resets = s.resets := rfl

@[simp] theorem State.setW_cmd (s : State) (w : Vector KWord 8) : (s.setW w).cmd = s.cmd := rfl
@[simp] theorem State.setW_status (s : State) (w : Vector KWord 8) : (s.setW w).status = s.status := rfl
@[simp] theorem State.setW_key (s : State) (w : Vector KWord 8) : (s.setW w).key = s.key := rfl
@[simp] theorem State.setW_iv (s : State) (w : Vector KWord 8) : (s.setW w).iv = s.iv := rfl
@[simp] theorem State.setW_din (s : State) (w : Vector KWord 8) : (s.setW w).din = s.din := rfl
@[simp] theorem State.setW_dout (s : State) (w : Vector KWord 8) : (s.setW w).dout = s.dout := rfl
@[simp] theorem State.setW_w (s : State) (w : Vector KWord 8) : (s.setW w).w = w := rfl
@[simp] theorem State.setW_mem (s : State) (w : Vector KWord 8) : (s.setW w).mem = s.mem := rfl
@[simp] theorem State.setW_host (s : State) (w : Vector KWord 8) : (s.setW w).host = s.host := rfl
@[simp] theorem State.setW_noted (s : State) (w : Vector KWord 8) : (s.setW w).noted = s.noted := rfl
@[simp] theorem State.setW_busEvents (s : State) (w : Vector KWord 8) : (s.setW w).busEvents = s.busEvents := rfl
@[simp] theorem State.setW_ivDraws (s : State) (w : Vector KWord 8) : (s.setW w).ivDraws = s.ivDraws := rfl
@[simp] theorem State.setW_resets (s : State) (w : Vector KWord 8) : (s.setW w).resets = s.resets := rfl

@[simp] theorem State.expandKey_cmd (s : State) : s.expandKey.cmd = s.cmd := rfl
@[simp] theorem State.expandKey_status (s : State) : s.expandKey.status = s.status := rfl
@[simp] theorem State.expandKey_key (s : State) : s.expandKey.key = s.key := rfl
@[simp] theorem State.expandKey_iv (s : State) : s.expandKey.iv = s.iv := rfl
@[simp] theorem State.expandKey_din (s : State) : s.expandKey.din = s.din := rfl
@[simp] theorem State.expandKey_dout (s : State) : s.expandKey.dout = s.dout := rfl
@[simp] theorem State.expandKey_w (s : State) : s.expandKey.w = keyExpand sbox s.key := rfl
@[simp] theorem State.expandKey_mem (s : State) : s.expandKey.mem = s.mem := rfl
@[simp] theorem State.expandKey_host (s : State) : s.expandKey.host = s.host := rfl
@[simp] theorem State.expandKey_noted (s : State) : s.expandKey.noted = s.noted := rfl
@[simp] theorem State.expandKey_busEvents (s : State) : s.expandKey.busEvents = s.busEvents := rfl
@[simp] theorem State.expandKey_ivDraws (s : State) : s.expandKey.ivDraws = s.ivDraws := rfl
@[simp] theorem State.expandKey_resets (s : State) : s.expandKey.resets = s.resets := rfl

@[simp] theorem State.drawIv_cmd (s : State) : s.drawIv.cmd = s.cmd := rfl
@[simp] theorem State.drawIv_status (s : State) : s.drawIv.status = s.status := rfl
@[simp] theorem State.drawIv_key (s : State) : s.drawIv.key = s.key := rfl
@[simp] theorem State.drawIv_iv (s : State) : s.drawIv.iv = Config.draw16 s.ivDraws := rfl
@[simp] theorem State.drawIv_din (s : State) : s.drawIv.din = s.din := rfl
@[simp] theorem State.drawIv_dout (s : State) : s.drawIv.dout = s.dout := rfl
@[simp] theorem State.drawIv_w (s : State) : s.drawIv.w = s.w := rfl
@[simp] theorem State.drawIv_mem (s : State) : s.drawIv.mem = s.mem := rfl
@[simp] theorem State.drawIv_host (s : State) : s.drawIv.host = s.host := rfl
@[simp] theorem State.drawIv_noted (s : State) : s.drawIv.noted = s.noted := rfl
@[simp] theorem State.drawIv_busEvents (s : State) : s.drawIv.busEvents = s.busEvents := rfl
@[simp] theorem State.drawIv_ivDraws (s : State) : s.drawIv.ivDraws = s.ivDraws + 1 := rfl
@[simp] theorem State.drawIv_resets (s : State) : s.drawIv.resets = s.resets := rfl

@[simp] theorem State.finish_cmd (s : State) : s.finish.cmd = s.cmd := rfl
@[simp] theorem State.finish_status (s : State) : s.finish.status = Status.completed .none := rfl
@[simp] theorem State.finish_key (s : State) : s.finish.key = s.key := rfl
@[simp] theorem State.finish_iv (s : State) : s.finish.iv = s.iv := rfl
@[simp] theorem State.finish_din (s : State) : s.finish.din = s.din := rfl
@[simp] theorem State.finish_dout (s : State) : s.finish.dout = s.dout := rfl
@[simp] theorem State.finish_w (s : State) : s.finish.w = s.w := rfl
@[simp] theorem State.finish_mem (s : State) : s.finish.mem = s.mem := rfl
@[simp] theorem State.finish_host (s : State) : s.finish.host = s.host := rfl
@[simp] theorem State.finish_noted (s : State) : s.finish.noted = s.noted := rfl
@[simp] theorem State.finish_busEvents (s : State) : s.finish.busEvents = s.busEvents := rfl
@[simp] theorem State.finish_ivDraws (s : State) : s.finish.ivDraws = s.ivDraws := rfl
@[simp] theorem State.finish_resets (s : State) : s.finish.resets = s.resets := rfl

@[simp] theorem State.raiseErr_cmd (s : State) (e : ErrCode) : (s.raiseErr e).cmd = s.cmd := rfl
@[simp] theorem State.raiseErr_status (s : State) (e : ErrCode) : (s.raiseErr e).status = Status.completed e := rfl
@[simp] theorem State.raiseErr_key (s : State) (e : ErrCode) : (s.raiseErr e).key = s.key := rfl
@[simp] theorem State.raiseErr_iv (s : State) (e : ErrCode) : (s.raiseErr e).iv = s.iv := rfl
@[simp] theorem State.raiseErr_din (s : State) (e : ErrCode) : (s.raiseErr e).din = s.din := rfl
@[simp] theorem State.raiseErr_dout (s : State) (e : ErrCode) : (s.raiseErr e).dout = s.dout := rfl
@[simp] theorem State.raiseErr_w (s : State) (e : ErrCode) : (s.raiseErr e).w = s.w := rfl
@[simp] theorem State.raiseErr_mem (s : State) (e : ErrCode) : (s.raiseErr e).mem = s.mem := rfl
@[simp] theorem State.raiseErr_host (s : State) (e : ErrCode) : (s.raiseErr e).host = s.host := rfl
@[simp] theorem State.raiseErr_noted (s : State) (e : ErrCode) : (s.raiseErr e).noted = s.noted := rfl
@[simp] theorem State.raiseErr_busEvents (s : State) (e : ErrCode) : (s.raiseErr e).busEvents = s.busEvents := rfl
@[simp] theorem State.raiseErr_ivDraws (s : State) (e : ErrCode) : (s.raiseErr e).ivDraws = s.ivDraws := rfl
@[simp] theorem State.raiseErr_resets (s : State) (e : ErrCode) : (s.raiseErr e).resets = s.resets := rfl

@[simp] theorem State.issue_cmd (s : State) (v : Block) : (s.issue v).cmd = v := rfl
@[simp] theorem State.issue_status (s : State) (v : Block) : (s.issue v).status = Status.pending := rfl
@[simp] theorem State.issue_key (s : State) (v : Block) : (s.issue v).key = s.key := rfl
@[simp] theorem State.issue_iv (s : State) (v : Block) : (s.issue v).iv = s.iv := rfl
@[simp] theorem State.issue_din (s : State) (v : Block) : (s.issue v).din = s.din := rfl
@[simp] theorem State.issue_dout (s : State) (v : Block) : (s.issue v).dout = s.dout := rfl
@[simp] theorem State.issue_w (s : State) (v : Block) : (s.issue v).w = s.w := rfl
@[simp] theorem State.issue_mem (s : State) (v : Block) : (s.issue v).mem = s.mem := rfl
@[simp] theorem State.issue_host (s : State) (v : Block) : (s.issue v).host = s.host := rfl
@[simp] theorem State.issue_noted (s : State) (v : Block) : (s.issue v).noted = s.noted := rfl
@[simp] theorem State.issue_busEvents (s : State) (v : Block) : (s.issue v).busEvents = s.busEvents := rfl
@[simp] theorem State.issue_ivDraws (s : State) (v : Block) : (s.issue v).ivDraws = s.ivDraws := rfl
@[simp] theorem State.issue_resets (s : State) (v : Block) : (s.issue v).resets = s.resets := rfl

@[simp] theorem State.afterReset_cmd (s : State) : s.afterReset.cmd = 0x0000 := rfl
@[simp] theorem State.afterReset_status (s : State) : s.afterReset.status = { busy := false, done := false, err := 0 } := rfl
@[simp] theorem State.afterReset_key (s : State) : s.afterReset.key = 0x0000 := rfl
@[simp] theorem State.afterReset_iv (s : State) : s.afterReset.iv = 0x0000 := rfl
@[simp] theorem State.afterReset_din (s : State) : s.afterReset.din = 0x0000 := rfl
@[simp] theorem State.afterReset_dout (s : State) : s.afterReset.dout = 0x0000 := rfl
@[simp] theorem State.afterReset_w (s : State) : s.afterReset.w = #v[0x00, 0x00, 0x00, 0x00, 0x00, 0x00, 0x00, 0x00] := rfl
@[simp] theorem State.afterReset_mem (s : State) : s.afterReset.mem = [] := rfl
@[simp] theorem State.afterReset_host (s : State) : s.afterReset.host = s.host := rfl
@[simp] theorem State.afterReset_noted (s : State) : s.afterReset.noted = s.noted := rfl
@[simp] theorem State.afterReset_busEvents (s : State) : s.afterReset.busEvents = s.busEvents := rfl
@[simp] theorem State.afterReset_ivDraws (s : State) : s.afterReset.ivDraws = s.ivDraws := rfl
@[simp] theorem State.afterReset_resets (s : State) : s.afterReset.resets = s.resets + 1 := rfl

@[simp] theorem Status.pending_busy : Status.pending.busy = true := rfl
@[simp] theorem Status.pending_done : Status.pending.done = false := rfl
@[simp] theorem Status.pending_err : Status.pending.err = 0 := rfl
@[simp] theorem Status.completed_busy (e : ErrCode) : (Status.completed e).busy = false := rfl
@[simp] theorem Status.completed_done (e : ErrCode) : (Status.completed e).done = true := rfl
@[simp] theorem Status.completed_err (e : ErrCode) : (Status.completed e).err = e.code := rfl

/-- The buffers depend on the memory and on the number of resets only. -/
theorem State.bufferWord_congr {s t : State} (hm : t.mem = s.mem) (hr : t.resets = s.resets) (a : Nat) :
    t.bufferWord a = s.bufferWord a := by
  unfold State.bufferWord
  rw [hm, hr]

theorem State.inWord_congr {s t : State} (hm : t.mem = s.mem) (hr : t.resets = s.resets) (i : Nat) :
    t.inWord i = s.inWord i := State.bufferWord_congr hm hr _

theorem State.outWord_congr {s t : State} (hm : t.mem = s.mem) (hr : t.resets = s.resets) (i : Nat) :
    t.outWord i = s.outWord i := State.bufferWord_congr hm hr _

@[simp] theorem State.setDout_inWord (s : State) (v : Block) (i : Nat) : (s.setDout v).inWord i = s.inWord i := rfl
@[simp] theorem State.setDout_outWord (s : State) (v : Block) (i : Nat) : (s.setDout v).outWord i = s.outWord i := rfl
@[simp] theorem State.setW_inWord (s : State) (w : Vector KWord 8) (i : Nat) : (s.setW w).inWord i = s.inWord i := rfl
@[simp] theorem State.setW_outWord (s : State) (w : Vector KWord 8) (i : Nat) : (s.setW w).outWord i = s.outWord i := rfl
@[simp] theorem State.expandKey_inWord (s : State) (i : Nat) : s.expandKey.inWord i = s.inWord i := rfl
@[simp] theorem State.expandKey_outWord (s : State) (i : Nat) : s.expandKey.outWord i = s.outWord i := rfl
@[simp] theorem State.drawIv_inWord (s : State) (i : Nat) : s.drawIv.inWord i = s.inWord i := rfl
@[simp] theorem State.drawIv_outWord (s : State) (i : Nat) : s.drawIv.outWord i = s.outWord i := rfl
@[simp] theorem State.finish_inWord (s : State) (i : Nat) : s.finish.inWord i = s.inWord i := rfl
@[simp] theorem State.finish_outWord (s : State) (i : Nat) : s.finish.outWord i = s.outWord i := rfl
@[simp] theorem State.raiseErr_inWord (s : State) (e : ErrCode) (i : Nat) : (s.raiseErr e).inWord i = s.inWord i := rfl
@[simp] theorem State.raiseErr_outWord (s : State) (e : ErrCode) (i : Nat) : (s.raiseErr e).outWord i = s.outWord i := rfl
@[simp] theorem State.issue_inWord (s : State) (v : Block) (i : Nat) : (s.issue v).inWord i = s.inWord i := rfl
@[simp] theorem State.issue_outWord (s : State) (v : Block) (i : Nat) : (s.issue v).outWord i = s.outWord i := rfl

end Sys2Proof.Machine
end

