-- ==== Sys2Proof/Laws/Memory.lean ====
section
/-! SUPPORT. The buffers' memory: read after write, the canonical form and what keeps it, equal contents are equal data. -/

namespace Sys2Proof.Machine

@[simp] theorem Memory.find?_nil (a : Nat) : Memory.find? [] a = none := rfl

@[simp] theorem Memory.find?_set_same (m : Memory) (a : Nat) (v : Block) : (m.set a v).find? a = some v := by
  induction m with
  | nil => simp [Memory.set, Memory.find?]
  | cons c m ih =>
    obtain ⟨b, u⟩ := c
    unfold Memory.set
    split_ifs with h1 h2
    · simp [Memory.find?]
    · simp [Memory.find?]
    · simp [Memory.find?, h2, ih]

theorem Memory.find?_set_other (m : Memory) {a b : Nat} (v : Block) (h : b ≠ a) : (m.set a v).find? b = m.find? b := by
  induction m with
  | nil => simp [Memory.set, Memory.find?, h]
  | cons c m ih =>
    obtain ⟨b', u⟩ := c
    unfold Memory.set
    split_ifs with h1 h2
    · simp [Memory.find?, h]
    · subst h2
      simp [Memory.find?, h]
    · simp [Memory.find?, ih]

theorem Memory.risesFrom_set (m : Memory) {lo a : Nat} (v : Block) (hm : Memory.risesFrom lo m = true) (ha : lo < a) :
    Memory.risesFrom lo (m.set a v) = true := by
  induction m generalizing lo with
  | nil => simpa [Memory.set, Memory.risesFrom] using ha
  | cons c m ih =>
    obtain ⟨b, u⟩ := c
    simp only [Memory.risesFrom, Bool.and_eq_true, decide_eq_true_eq] at hm
    unfold Memory.set
    split_ifs with h1 h2
    · simp [Memory.risesFrom, ha, h1, hm.2]
    · subst h2
      simp [Memory.risesFrom, ha, hm.2]
    · have hb : b < a := by omega
      simp [Memory.risesFrom, hm.1, ih hm.2 hb]

theorem Memory.all_set (m : Memory) (p : Nat → Bool) {a : Nat} (v : Block) (hm : m.all (fun c => p c.1) = true) (ha : p a = true) :
    (m.set a v).all (fun c => p c.1) = true := by
  induction m with
  | nil => simpa [Memory.set] using ha
  | cons c m ih =>
    obtain ⟨b, u⟩ := c
    simp only [List.all_cons, Bool.and_eq_true] at hm
    unfold Memory.set
    split_ifs with h1 h2
    · simp only [List.all_cons, Bool.and_eq_true]
      exact ⟨ha, hm⟩
    · simp only [List.all_cons, Bool.and_eq_true]
      exact ⟨ha, hm.2⟩
    · simp only [List.all_cons, Bool.and_eq_true]
      exact ⟨hm.1, ih hm.2⟩

/-- A write inside the buffer windows keeps the canonical form. -/
theorem Memory.wf_set {m : Memory} {a : Nat} (v : Block) (hm : m.wf = true) (h1 : 0x100 ≤ a) (h2 : a < 0x300) :
    (m.set a v).wf = true := by
  unfold Memory.wf at hm ⊢
  rw [Bool.and_eq_true] at hm ⊢
  exact ⟨Memory.risesFrom_set m v hm.1 (by omega), Memory.all_set m (fun b => decide (b < 0x300)) v hm.2 (by simpa using h2)⟩

@[simp] theorem Memory.wf_nil : Memory.wf [] = true := rfl

theorem State.reset_mem_wf : State.reset.mem.wf = true := rfl

theorem Memory.find?_of_risesFrom {m : Memory} {lo a : Nat} (hm : Memory.risesFrom lo m = true) (ha : a ≤ lo) : m.find? a = none := by
  induction m generalizing lo with
  | nil => rfl
  | cons c m ih =>
    obtain ⟨b, u⟩ := c
    simp only [Memory.risesFrom, Bool.and_eq_true, decide_eq_true_eq] at hm
    have hab : a ≠ b := by omega
    simp only [Memory.find?, hab, if_false]
    exact ih hm.2 (by omega)

/-- Two rising memories that list the same words at the same addresses are the same list. -/
theorem Memory.eq_of_find?_eq {m m' : Memory} {lo : Nat} (hm : Memory.risesFrom lo m = true) (hm' : Memory.risesFrom lo m' = true)
    (h : ∀ a, m.find? a = m'.find? a) : m = m' := by
  induction m generalizing m' lo with
  | nil =>
    cases m' with
    | nil => rfl
    | cons c m' => simpa [Memory.find?] using h c.1
  | cons c m ih =>
    obtain ⟨b, u⟩ := c
    cases m' with
    | nil => simpa [Memory.find?] using h b
    | cons c' m' =>
      obtain ⟨b', u'⟩ := c'
      simp only [Memory.risesFrom, Bool.and_eq_true, decide_eq_true_eq] at hm hm'
      have hb : b = b' := by
        by_contra hne
        rcases Nat.lt_or_gt_of_ne hne with hlt | hgt
        · have := h b
          simp [Memory.find?, hne, Memory.find?_of_risesFrom hm'.2 (Nat.le_of_lt hlt)] at this
        · have := h b'
          simp [Memory.find?, Ne.symm hne, Memory.find?_of_risesFrom hm.2 (Nat.le_of_lt hgt)] at this
      subst hb
      have hu : u = u' := by simpa [Memory.find?] using h b
      subst hu
      have hmm : m = m' := by
        refine ih hm.2 hm'.2 fun a => ?_
        by_cases hab : a = b
        · subst hab
          rw [Memory.find?_of_risesFrom hm.2 (Nat.le_refl _), Memory.find?_of_risesFrom hm'.2 (Nat.le_refl _)]
        · simpa [Memory.find?, hab] using h a
      rw [hmm]

/-- Equal buffer contents are equal data: two canonical memories that list the same words are the same list. -/
theorem Memory.eq_of_wf {m m' : Memory} (hm : m.wf = true) (hm' : m'.wf = true) (h : ∀ a, m.find? a = m'.find? a) : m = m' := by
  unfold Memory.wf at hm hm'
  rw [Bool.and_eq_true] at hm hm'
  exact Memory.eq_of_find?_eq hm.1 hm'.1 h

theorem State.bufferWord_of_find? {s : State} {a : Nat} {v : Block} (h : s.mem.find? a = some v) : s.bufferWord a = v := by
  unfold State.bufferWord
  rw [h]

@[simp] theorem State.outWord_setOut_same (s : State) (i : Nat) (v : Block) : (s.setOut i v).outWord i = v :=
  State.bufferWord_of_find? (Memory.find?_set_same _ _ _)

@[simp] theorem State.inWord_setIn_same (s : State) (i : Nat) (v : Block) : (s.setIn i v).inWord i = v :=
  State.bufferWord_of_find? (Memory.find?_set_same _ _ _)

theorem State.bufferWord_setOut_other (s : State) {i a : Nat} (v : Block) (h : a ≠ 0x200 + i) :
    (s.setOut i v).bufferWord a = s.bufferWord a := by
  simp only [State.bufferWord, State.setOut_mem, State.setOut_resets]
  rw [Memory.find?_set_other _ _ h]

theorem State.bufferWord_setIn_other (s : State) {i a : Nat} (v : Block) (h : a ≠ 0x100 + i) :
    (s.setIn i v).bufferWord a = s.bufferWord a := by
  simp only [State.bufferWord, State.setIn_mem, State.setIn_resets]
  rw [Memory.find?_set_other _ _ h]

theorem State.outWord_setOut_other (s : State) {i j : Nat} (v : Block) (h : j ≠ i) : (s.setOut i v).outWord j = s.outWord j :=
  State.bufferWord_setOut_other s v (by omega)

theorem State.inWord_setIn_other (s : State) {i j : Nat} (v : Block) (h : j ≠ i) : (s.setIn i v).inWord j = s.inWord j :=
  State.bufferWord_setIn_other s v (by omega)

/-- An OUT write leaves the 256 IN words alone. -/
theorem State.inWord_setOut (s : State) {i j : Nat} (v : Block) (h : j < 256) : (s.setOut i v).inWord j = s.inWord j :=
  State.bufferWord_setOut_other s v (by omega)

/-- An IN write leaves the OUT words alone. -/
theorem State.outWord_setIn (s : State) {i j : Nat} (v : Block) (h : i < 256) : (s.setIn i v).outWord j = s.outWord j :=
  State.bufferWord_setIn_other s v (by omega)

end Sys2Proof.Machine
end

