-- ==== Sys2Proof/Laws/Sequencer.lean ====
section
/-! SUPPORT. What the block sequencers do: one lemma per loop that says everything it can do. -/

namespace Sys2Proof.Machine

/-- The ECB sequencer changes only the memory, and there only the OUT words of the blocks it ran: OUT[j] is `f` of IN[j]. The
memory keeps its canonical form. -/
theorem ecbLoop_spec (f : Block → Block) (todo blk : Nat) (s : State) (h : blk + todo ≤ 256) :
    ecbLoop f todo blk s = { s with mem := (ecbLoop f todo blk s).mem } ∧
    (∀ j, blk ≤ j → j < blk + todo → (ecbLoop f todo blk s).outWord j = f (s.inWord j)) ∧
    (∀ a, ¬ (0x200 + blk ≤ a ∧ a < 0x200 + blk + todo) → (ecbLoop f todo blk s).bufferWord a = s.bufferWord a) ∧
    (s.mem.wf = true → (ecbLoop f todo blk s).mem.wf = true) := by
  induction todo generalizing blk s with
  | zero => exact ⟨rfl, fun j h1 h2 => absurd h2 (by omega), fun _ _ => rfl, id⟩
  | succ todo ih =>
    obtain ⟨hs, hout, hrest, hwf⟩ := ih (blk + 1) (s.setOut blk (f (s.inWord blk))) (by omega)
    unfold ecbLoop
    refine ⟨hs, fun j h1 h2 => ?_, fun a ha => ?_, fun hm => hwf (Memory.wf_set _ hm (by omega) (by omega))⟩
    · by_cases hj : j = blk
      · subst hj
        exact (hrest (0x200 + j) (by omega)).trans (State.outWord_setOut_same s j _)
      · rw [hout j (by omega) (by omega), State.inWord_setOut s _ (by omega)]
    · rw [hrest a (by omega), State.bufferWord_setOut_other s _ (by omega)]

/-- The CBC encryption sequencer changes only the memory, and there only the OUT words after the block indexes it ran: each is
`f` of the plaintext word xor the chain value, which is `prev` for the first and the OUT word before it from then on. -/
theorem cbcEncLoop_spec (f : Block → Block) (todo blk : Nat) (prev : Block) (s : State) (h : blk + todo ≤ 255) :
    cbcEncLoop f todo blk prev s = { s with mem := (cbcEncLoop f todo blk prev s).mem } ∧
    (∀ j, j < todo → (cbcEncLoop f todo blk prev s).outWord (blk + j + 1) =
      f (s.inWord (blk + j) ^^^ if j = 0 then prev else (cbcEncLoop f todo blk prev s).outWord (blk + j))) ∧
    (∀ a, ¬ (0x200 + blk < a ∧ a ≤ 0x200 + blk + todo) → (cbcEncLoop f todo blk prev s).bufferWord a = s.bufferWord a) ∧
    (s.mem.wf = true → (cbcEncLoop f todo blk prev s).mem.wf = true) := by
  induction todo generalizing blk prev s with
  | zero => exact ⟨rfl, fun j hj => absurd hj (by omega), fun _ _ => rfl, id⟩
  | succ todo ih =>
    obtain ⟨hs, hout, hrest, hwf⟩ :=
      ih (blk + 1) (f (s.inWord blk ^^^ prev)) (s.setOut (blk + 1) (f (s.inWord blk ^^^ prev))) (by omega)
    unfold cbcEncLoop
    dsimp only
    have hfirst : (cbcEncLoop f todo (blk + 1) (f (s.inWord blk ^^^ prev))
        (s.setOut (blk + 1) (f (s.inWord blk ^^^ prev)))).outWord (blk + 1) = f (s.inWord blk ^^^ prev) :=
      (hrest (0x200 + (blk + 1)) (by omega)).trans (State.outWord_setOut_same s (blk + 1) _)
    refine ⟨hs, fun j hj => ?_, fun a ha => ?_, fun hm => hwf (Memory.wf_set _ hm (by omega) (by omega))⟩
    · cases j with
      | zero => simpa using hfirst
      | succ j =>
        have := hout j (by omega)
        rw [State.inWord_setOut s _ (by omega)] at this
        rw [show blk + (j + 1) + 1 = blk + 1 + j + 1 by omega, show blk + (j + 1) = blk + 1 + j by omega, this]
        simp only [Nat.add_eq_zero_iff, Nat.one_ne_zero, and_false, if_false]
        by_cases hj0 : j = 0
        · subst hj0
          simp only [Nat.add_zero, if_true]
          exact congrArg (fun c => f (s.inWord (blk + 1) ^^^ c)) hfirst.symm
        · rw [if_neg hj0]
    · rw [hrest a (by omega), State.bufferWord_setOut_other s _ (by omega)]

/-- The CBC decryption sequencer changes only the memory, and there only the OUT words of the block indexes it ran: each is `f`
of a ciphertext word xor the chain value, which is `prev` for the first and the ciphertext word before it from then on. -/
theorem cbcDecLoop_spec (f : Block → Block) (todo blk : Nat) (prev : Block) (s : State) (h : blk + todo ≤ 255) :
    cbcDecLoop f todo blk prev s = { s with mem := (cbcDecLoop f todo blk prev s).mem } ∧
    (∀ j, j < todo → (cbcDecLoop f todo blk prev s).outWord (blk + j) =
      f (s.inWord (blk + j + 1)) ^^^ if j = 0 then prev else s.inWord (blk + j)) ∧
    (∀ a, ¬ (0x200 + blk ≤ a ∧ a < 0x200 + blk + todo) → (cbcDecLoop f todo blk prev s).bufferWord a = s.bufferWord a) ∧
    (s.mem.wf = true → (cbcDecLoop f todo blk prev s).mem.wf = true) := by
  induction todo generalizing blk prev s with
  | zero => exact ⟨rfl, fun j hj => absurd hj (by omega), fun _ _ => rfl, id⟩
  | succ todo ih =>
    obtain ⟨hs, hout, hrest, hwf⟩ :=
      ih (blk + 1) (s.inWord (blk + 1)) (s.setOut blk (f (s.inWord (blk + 1)) ^^^ prev)) (by omega)
    unfold cbcDecLoop
    dsimp only
    refine ⟨hs, fun j hj => ?_, fun a ha => ?_, fun hm => hwf (Memory.wf_set _ hm (by omega) (by omega))⟩
    · cases j with
      | zero =>
        have hfirst : (cbcDecLoop f todo (blk + 1) (s.inWord (blk + 1))
            (s.setOut blk (f (s.inWord (blk + 1)) ^^^ prev))).outWord blk = f (s.inWord (blk + 1)) ^^^ prev :=
          (hrest (0x200 + blk) (by omega)).trans (State.outWord_setOut_same s blk _)
        simpa using hfirst
      | succ j =>
        have := hout j (by omega)
        rw [State.inWord_setOut s _ (by omega), State.inWord_setOut s _ (by omega)] at this
        rw [show blk + (j + 1) + 1 = blk + 1 + j + 1 by omega, show blk + (j + 1) = blk + 1 + j by omega, this]
        simp only [Nat.add_eq_zero_iff, Nat.one_ne_zero, and_false, if_false]
        by_cases hj0 : j = 0
        · subst hj0
          simp
        · rw [if_neg hj0]
    · rw [hrest a (by omega), State.bufferWord_setOut_other s _ (by omega)]

end Sys2Proof.Machine
end

