-- ==== Sys2Proof/Laws/Bus.lean ====
section
/-! SUPPORT. The address map range by range, what a host write and a host event can do, and which agent moves. -/

namespace Sys2Proof.Machine

theorem locate_reserved {a : BusAddr}
    (h : a.toNat = 0x006 ∨ a.toNat = 0x007 ∨ (0x014 ≤ a.toNat ∧ a.toNat < 0x100) ∨ 0x300 ≤ a.toNat) : locate a = .reserved := by
  unfold locate
  dsimp only
  rw [if_neg (by omega), if_neg (by omega), if_neg (by omega), if_neg (by omega), if_neg (by omega), if_neg (by omega)]
  by_cases h8 : a.toNat < 0x008
  · rw [if_pos h8]
  · rw [if_neg h8, dif_neg (by omega), dif_neg (by omega)]
    by_cases h100 : a.toNat < 0x100
    · rw [if_pos h100]
    · rw [if_neg h100, dif_neg (by omega), dif_neg (by omega)]

theorem locate_keyWord {a : BusAddr} {i : Nat} (hi : i < 8) (h : a.toNat = 0x008 + i) : locate a = .keyWord ⟨i, hi⟩ := by
  unfold locate
  dsimp only
  rw [if_neg (by omega), if_neg (by omega), if_neg (by omega), if_neg (by omega), if_neg (by omega), if_neg (by omega), if_neg (by omega), dif_pos (by omega)]
  exact congrArg Location.keyWord (Fin.ext (show a.toNat - 0x008 = i by omega))

theorem locate_roundKey {a : BusAddr} {r : Nat} (hi : r < 4) (h : a.toNat = 0x010 + r) : locate a = .roundKey ⟨r, hi⟩ := by
  unfold locate
  dsimp only
  rw [if_neg (by omega), if_neg (by omega), if_neg (by omega), if_neg (by omega), if_neg (by omega), if_neg (by omega), if_neg (by omega), dif_neg (by omega), dif_pos (by omega)]
  exact congrArg Location.roundKey (Fin.ext (show a.toNat - 0x010 = r by omega))

theorem locate_inBuf {a : BusAddr} {i : Nat} (hi : i < 256) (h : a.toNat = 0x100 + i) : locate a = .inBuf ⟨i, hi⟩ := by
  unfold locate
  dsimp only
  rw [if_neg (by omega), if_neg (by omega), if_neg (by omega), if_neg (by omega), if_neg (by omega), if_neg (by omega), if_neg (by omega), dif_neg (by omega), dif_neg (by omega), if_neg (by omega), dif_pos (by omega)]
  exact congrArg Location.inBuf (Fin.ext (show a.toNat - 0x100 = i by omega))

theorem locate_outBuf {a : BusAddr} {i : Nat} (hi : i < 256) (h : a.toNat = 0x200 + i) : locate a = .outBuf ⟨i, hi⟩ := by
  unfold locate
  dsimp only
  rw [if_neg (by omega), if_neg (by omega), if_neg (by omega), if_neg (by omega), if_neg (by omega), if_neg (by omega), if_neg (by omega), dif_neg (by omega), dif_neg (by omega), if_neg (by omega), dif_neg (by omega), dif_pos (by omega)]
  exact congrArg Location.outBuf (Fin.ext (show a.toNat - 0x200 = i by omega))

/-- Everything a host write can do: nothing (a command pending, or a read-only or reserved address), an issue, or the store
of one writable word. -/
theorem State.busWrite_cases (s : State) (a : BusAddr) (v : Block) :
    s.busWrite a v = s ∨
    (s.status.busy = false ∧
      (s.busWrite a v = s.issue v ∨ s.busWrite a v = { s with key := v } ∨ s.busWrite a v = { s with iv := v } ∨
        s.busWrite a v = { s with din := v } ∨ ∃ i : Fin 256, s.busWrite a v = s.setIn i.val v)) := by
  unfold State.busWrite
  by_cases hb : s.status.busy = true
  · simp [hb]
  · have hb' : s.status.busy = false := by simpa using hb
    rw [if_neg hb]
    cases locate a with
    | cmd => exact .inr ⟨hb', .inl rfl⟩
    | key => exact .inr ⟨hb', .inr (.inl rfl)⟩
    | iv => exact .inr ⟨hb', .inr (.inr (.inl rfl))⟩
    | din => exact .inr ⟨hb', .inr (.inr (.inr (.inl rfl)))⟩
    | inBuf i => exact .inr ⟨hb', .inr (.inr (.inr (.inr ⟨i, rfl⟩)))⟩
    | status => exact .inl rfl
    | dout => exact .inl rfl
    | keyWord i => exact .inl rfl
    | roundKey r => exact .inl rfl
    | outBuf i => exact .inl rfl
    | reserved => exact .inl rfl

@[simp] theorem State.serveHost_nil {s : State} (h : s.host = []) : s.serveHost = s := by
  unfold State.serveHost
  rw [h]

theorem State.serveHost_cons {s : State} {e : HostEvent} {rest : List HostEvent} (h : s.host = e :: rest) :
    s.serveHost = { s.access e with host := rest, busEvents := s.busEvents + 1 } := by
  unfold State.serveHost
  rw [h]

/-- Everything a step can do: the completion of the pending command, one host event, or nothing. -/
theorem step_cases (s : State) :
    (s.nextAgent = .completion ∧ s.status.busy = true ∧ step s = s.complete) ∨
    (s.nextAgent = .host ∧ (∃ e rest, s.host = e :: rest) ∧ step s = .next s.serveHost) ∨
    (s.nextAgent = .idle ∧ s.status.busy = false ∧ s.host = [] ∧ step s = .next s) := by
  have hstep : ∀ g, s.nextAgent = g → step s = match g with
      | .completion => s.complete
      | .host => .next s.serveHost
      | .idle => .next s := by
    intro g hg
    subst hg
    rfl
  by_cases hb : s.status.busy = true
  · by_cases hc : (hostLetsThrough s.host || Config.completesFirst s.busEvents) = true
    · have hg : s.nextAgent = .completion := by unfold State.nextAgent; rw [if_pos hb, if_pos hc]
      exact .inl ⟨hg, hb, hstep _ hg⟩
    · have hg : s.nextAgent = .host := by unfold State.nextAgent; rw [if_pos hb, if_neg hc]
      refine .inr (.inl ⟨hg, ?_, hstep _ hg⟩)
      cases hh : s.host with
      | nil => simp [hh, hostLetsThrough] at hc
      | cons e rest => exact ⟨e, rest, rfl⟩
  · have hb' : s.status.busy = false := by simpa using hb
    cases hh : s.host with
    | nil =>
      have hg : s.nextAgent = .idle := by unfold State.nextAgent; rw [if_neg hb, hh]; rfl
      exact .inr (.inr ⟨hg, hb', rfl, hstep _ hg⟩)
    | cons e rest =>
      have hg : s.nextAgent = .host := by unfold State.nextAgent; rw [if_neg hb, hh]; rfl
      exact .inr (.inl ⟨hg, ⟨e, rest, rfl⟩, hstep _ hg⟩)

/-- A pending command completes at once when the host waits for it or does nothing. -/
theorem step_pending {s : State} (hb : s.status.busy = true) (hh : hostLetsThrough s.host = true) : step s = s.complete := by
  have hg : s.nextAgent = .completion := by simp [State.nextAgent, hb, hh]
  unfold step
  rw [hg]

/-- The placed word is completed by the very next step. -/
theorem step_withFetchWord (s : State) (nbits w : Nat) :
    step (s.withFetchWord nbits w) = (s.withFetchWord nbits w).complete := step_pending rfl rfl

theorem State.complete_ok {s : State} {i : Instr} (h : decode s.cmd = .ok i) : s.complete = exec i s := by
  unfold State.complete
  rw [h]

theorem State.complete_error {s : State} {e : DecodeError} (h : decode s.cmd = .error e) :
    s.complete = .next (s.raiseErr .illegal) := by
  unfold State.complete
  rw [h]

/-- No steps leave the state as it is. -/
theorem core_run_zero (s : State) : Sys2Proof.core.run 0 s = .next s := rfl

/-- A run whose first step answers a next state goes on from it. -/
theorem core_run_succ {s t : State} (k : Nat) (h : step s = .next t) : Sys2Proof.core.run (k + 1) s = Sys2Proof.core.run k t := by
  have h' : Sys2Proof.core.step s = .next t := h
  show Host.Core.run Sys2Proof.core (k + 1) s = _
  simp only [Host.Core.run]
  rw [h']

end Sys2Proof.Machine
end

