-- ==== Sys2Proof/Laws/Codec.lean ====
section
/-! SUPPORT. Nibbles of a concatenation, and every block and key-schedule word as a concatenation of its nibbles. -/

namespace Sys2Proof.Machine

@[simp] theorem nib0_append (a b c d : Nibble) : nib0 (a ++ b ++ c ++ d) = a := by
  apply BitVec.eq_of_getLsbD_eq
  intro i hi
  simp only [nib0, BitVec.getLsbD_append, BitVec.getLsbD_extractLsb']
  interval_cases i <;> simp

@[simp] theorem nib1_append (a b c d : Nibble) : nib1 (a ++ b ++ c ++ d) = b := by
  apply BitVec.eq_of_getLsbD_eq
  intro i hi
  simp only [nib1, BitVec.getLsbD_append, BitVec.getLsbD_extractLsb']
  interval_cases i <;> simp

@[simp] theorem nib2_append (a b c d : Nibble) : nib2 (a ++ b ++ c ++ d) = c := by
  apply BitVec.eq_of_getLsbD_eq
  intro i hi
  simp only [nib2, BitVec.getLsbD_append, BitVec.getLsbD_extractLsb']
  interval_cases i <;> simp

@[simp] theorem nib3_append (a b c d : Nibble) : nib3 (a ++ b ++ c ++ d) = d := by
  apply BitVec.eq_of_getLsbD_eq
  intro i hi
  simp only [nib3, BitVec.getLsbD_append, BitVec.getLsbD_extractLsb']
  interval_cases i <;> simp

@[simp] theorem wordNib0_kword (a b : Nibble) : wordNib0 (kword a b) = a := by
  apply BitVec.eq_of_getLsbD_eq
  intro i hi
  simp only [wordNib0, kword, BitVec.getLsbD_append, BitVec.getLsbD_extractLsb']
  interval_cases i <;> simp

@[simp] theorem wordNib1_kword (a b : Nibble) : wordNib1 (kword a b) = b := by
  apply BitVec.eq_of_getLsbD_eq
  intro i hi
  simp only [wordNib1, kword, BitVec.getLsbD_append, BitVec.getLsbD_extractLsb']
  interval_cases i <;> simp

/-- A block is the concatenation of its nibbles. -/
theorem block_eq_append_nibbles (w : Block) : w = nib0 w ++ nib1 w ++ nib2 w ++ nib3 w := by
  apply BitVec.eq_of_getLsbD_eq
  intro i hi
  simp only [nib0, nib1, nib2, nib3, BitVec.getLsbD_append, BitVec.getLsbD_extractLsb']
  interval_cases i <;> simp

/-- To show something of every block, show it of every concatenation of four nibbles. -/
theorem forall_block {P : Block → Prop} (h : ∀ a b c d : Nibble, P (a ++ b ++ c ++ d)) (w : Block) : P w := by
  rw [block_eq_append_nibbles w]
  exact h _ _ _ _

/-- A key-schedule word is the concatenation of its nibbles. -/
theorem kword_eq_append_nibbles (u : KWord) : u = kword (wordNib0 u) (wordNib1 u) := by
  apply BitVec.eq_of_getLsbD_eq
  intro i hi
  simp only [wordNib0, wordNib1, kword, BitVec.getLsbD_append, BitVec.getLsbD_extractLsb']
  interval_cases i <;> simp

/-- Xor of two blocks is xor nibble by nibble. -/
theorem append_xor_append (a b c d a' b' c' d' : Nibble) :
    (a ++ b ++ c ++ d) ^^^ (a' ++ b' ++ c' ++ d') = (a ^^^ a') ++ (b ^^^ b') ++ (c ^^^ c') ++ (d ^^^ d') := by
  apply BitVec.eq_of_getLsbD_eq
  intro i hi
  simp only [BitVec.getLsbD_append, BitVec.getLsbD_xor]
  split_ifs <;> rfl

end Sys2Proof.Machine
end

