-- ==== Sys2Proof/Laws/PerInstr.lean ====
section
/-! SUPPORT. Statements about every command as syntax, one lemma per constructor. -/

namespace Sys2Proof.Laws

/-- Bits 15:12 of a command's word are its opcode number (30_encoding.md R50, R53). -/
def OpcodeField.Statement (i : Instr) : Prop := ((encode i).extractLsb' 12 4).toNat = i.raw.op

theorem OpcodeField.nop : OpcodeField.Statement .nop := by unfold OpcodeField.Statement; decide
theorem OpcodeField.gfmul : ∀ a b : Nibble, OpcodeField.Statement (.gfmul a b) := by unfold OpcodeField.Statement; decide
theorem OpcodeField.subnib : OpcodeField.Statement .subnib := by unfold OpcodeField.Statement; decide
theorem OpcodeField.invsubnib : OpcodeField.Statement .invsubnib := by unfold OpcodeField.Statement; decide
theorem OpcodeField.shiftrows : OpcodeField.Statement .shiftrows := by unfold OpcodeField.Statement; decide
theorem OpcodeField.mixcol : OpcodeField.Statement .mixcol := by unfold OpcodeField.Statement; decide
theorem OpcodeField.invmixcol : OpcodeField.Statement .invmixcol := by unfold OpcodeField.Statement; decide
theorem OpcodeField.addrk : ∀ r : BitVec 2, OpcodeField.Statement (.addrk r) := by unfold OpcodeField.Statement; decide
theorem OpcodeField.keyexp : OpcodeField.Statement .keyexp := by unfold OpcodeField.Statement; decide
theorem OpcodeField.enc : OpcodeField.Statement .enc := by unfold OpcodeField.Statement; decide
theorem OpcodeField.dec : OpcodeField.Statement .dec := by unfold OpcodeField.Statement; decide
theorem OpcodeField.ecbEnc : ∀ n : BitVec 8, OpcodeField.Statement (.ecbEnc n) := by unfold OpcodeField.Statement; decide
theorem OpcodeField.ecbDec : ∀ n : BitVec 8, OpcodeField.Statement (.ecbDec n) := by unfold OpcodeField.Statement; decide
theorem OpcodeField.cbcEnc : ∀ (g : Bool) (n : BitVec 8), OpcodeField.Statement (.cbcEnc g n) := by unfold OpcodeField.Statement; decide
theorem OpcodeField.cbcDec : ∀ n : BitVec 8, OpcodeField.Statement (.cbcDec n) := by unfold OpcodeField.Statement; decide

end Sys2Proof.Laws
end

