-- ==== Sys2Proof/Laws/WellFormed.lean ====
section
/-! SUPPORT. Every command is well formed: its operand types have exactly the widths of its fields. -/

namespace Sys2Proof.Laws.WellFormed

theorem instr_wellFormed (i : Instr) : i.WellFormed = true := by
  cases i <;>
    simp only [Instr.WellFormed, Instr.raw, RawCommand.wellFormed, formatOf, Immediates.format, Immediates.fit, beq_self_eq_true,
      Bool.true_and, Bool.and_eq_true, decide_eq_true_eq] <;>
    omega

end Sys2Proof.Laws.WellFormed
end

