-- ==== Sys2Proof/Tests/Slice0.lean ====
section
/-! SUPPORT. The model's own tests: what well-formedness refuses, decoding of words written out from 30_encoding.md R51 and R53,
vectors of 95_test_vectors.md, and, for every statement with hypotheses, a concrete case that meets them. -/

namespace Sys2Proof.Tests

open Sys2Proof.Machine

/-- One number read off the state an outcome leads to. -/
def after {α : Type} (f : State → α) : Host.Outcome State Fault Refusal → Option α
  | .next t => some (f t)
  | .fault _ => none
  | .refused _ => none

/-! ## Well-formedness: one ill-formed term for each check -/

theorem test_wf_reserved_opcode : RawCommand.wellFormed ⟨0xF, .none⟩ = false := by decide
theorem test_wf_wrong_format : RawCommand.wellFormed ⟨0x0, .count 1⟩ = false := by decide
theorem test_wf_factor_a : RawCommand.wellFormed ⟨0x1, .nibbles 16 0⟩ = false := by decide
theorem test_wf_factor_b : RawCommand.wellFormed ⟨0x1, .nibbles 0 16⟩ = false := by decide
theorem test_wf_round_index : RawCommand.wellFormed ⟨0x7, .index 4⟩ = false := by decide
theorem test_wf_count : RawCommand.wellFormed ⟨0xB, .count 256⟩ = false := by decide
theorem test_wf_flagged_count : RawCommand.wellFormed ⟨0xD, .flagged true 256⟩ = false := by decide
theorem test_wf_accepts : RawCommand.wellFormed ⟨0xD, .flagged true 255⟩ = true := by decide
theorem test_legal_words : [0x0001, 0x1100, 0x7004, 0xB100, 0xD200, 0xF000].map legalWord = List.replicate 6 false := by decide

/-! ## Decoding: each constructor's word, bit by bit from its format -/

theorem test_decode_nop : decode 0b0000000000000000 = .ok .nop := by decide
theorem test_decode_gfmul : decode 0b0001000001001110 = .ok (.gfmul 0b0100 0b1110) := by decide
theorem test_decode_subnib : decode 0b0010000000000000 = .ok .subnib := by decide
theorem test_decode_invsubnib : decode 0b0011000000000000 = .ok .invsubnib := by decide
theorem test_decode_shiftrows : decode 0b0100000000000000 = .ok .shiftrows := by decide
theorem test_decode_mixcol : decode 0b0101000000000000 = .ok .mixcol := by decide
theorem test_decode_invmixcol : decode 0b0110000000000000 = .ok .invmixcol := by decide
theorem test_decode_addrk : decode 0b0111000000000010 = .ok (.addrk 0b10) := by decide
theorem test_decode_keyexp : decode 0b1000000000000000 = .ok .keyexp := by decide
theorem test_decode_enc : decode 0b1001000000000000 = .ok .enc := by decide
theorem test_decode_dec : decode 0b1010000000000000 = .ok .dec := by decide
theorem test_decode_ecb_enc : decode 0b1011000010000001 = .ok (.ecbEnc 0b10000001) := by decide
theorem test_decode_ecb_dec : decode 0b1100000010000001 = .ok (.ecbDec 0b10000001) := by decide
theorem test_decode_cbc_enc : decode 0b1101000000000011 = .ok (.cbcEnc false 0b00000011) := by decide
theorem test_decode_cbc_enc_g : decode 0b1101000110000000 = .ok (.cbcEnc true 0b10000000) := by decide
theorem test_decode_cbc_dec : decode 0b1110000011111110 = .ok (.cbcDec 0b11111110) := by decide
theorem test_decode_reserved_opcode : decode 0xF000 = .error .reservedOpcode := by decide
theorem test_decode_reserved_bit : decode 0xD200 = .error .reservedBitSet := by decide
theorem test_table_word : decodeTableWord 16 0x7003 = some (.addrk 3) := by decide

/-! ## The two candidate S-boxes (93_implementation_defined.md part 2), for vectors only. Each inverse is the true inverse of
its table; the spec's printed INV_SBOX_S row is not (log 17). -/

def inverseP (x : Nibble) : Nibble := ([0xE, 3, 4, 8, 1, 0xC, 0xA, 0xF, 7, 0xD, 9, 6, 0xB, 2, 0, 5] : List Nibble).getD x.toNat 0

def inverseS (x : Nibble) : Nibble := ([0xA, 5, 9, 0xB, 1, 7, 8, 0xF, 6, 0, 2, 3, 0xC, 4, 0xD, 0xE] : List Nibble).getD x.toNat 0

def sboxP : SBox := { toFun := candidateP, invFun := inverseP, left_inv := by decide, right_inv := by decide }

def sboxS : SBox := { toFun := candidateS, invFun := inverseS, left_inv := by decide, right_inv := by decide }

/-! ## Vectors of 95_test_vectors.md -/

theorem test_gf : (gfMul 2 8, gfMul 8 8, gfMul 4 0xE, gfMul 0xF 0xF, gfMul 3 0xE, gfMul 0xE 0xF) = (3, 0xC, 0xD, 0xA, 1, 5) := by decide
theorem test_shiftrows : [0x1234, 0x0100, 0x8421, 0x6F6B].map sr = [0x1432, 0x0001, 0x8124, 0x6B6F] := by decide
theorem test_mixcol : [0x1234, 0x8421, 0x6F6B, 0x5EF3].map mc = [0x9608, 0xB269, 0xF4C0, 0x893A] := by decide
theorem test_invmixcol : [0x1234, 0x8421, 0x6F6B, 0x5EF3].map imc = [0xD304, 0xC13D, 0xE260, 0x4D85] := by decide
theorem test_subnib_P : [0x0123, 0x4567, 0x89AB, 0xCDEF].map (subN sboxP) = [0xE4D1, 0x2FB8, 0x3A6C, 0x5907] := by decide
theorem test_invsubnib_S : [0x0123, 0x4567, 0x89AB, 0xCDEF].map (invSubN sboxS) = [0xA59B, 0x178F, 0x6023, 0xC4DE] := by decide
theorem test_keyexp_P : keyExpand sboxP 0x2D55 = #v[0x2D, 0x55, 0xC2, 0x97, 0x68, 0xFF, 0x5F, 0xA0] := by decide
theorem test_keyexp_S : keyExpand sboxS 0x1234 = #v[0x12, 0x34, 0xD9, 0xED, 0x16, 0xFB, 0x61, 0x9A] := by decide
theorem test_enc_P : encrypt sboxP 0x6F6B (keyExpand sboxP 0xA73B) = 0xB4DF := by decide +kernel
theorem test_enc_S : encrypt sboxS 0xFFFF (keyExpand sboxS 0x0000) = 0xEF42 := by decide +kernel
theorem test_dec_P : decrypt sboxP 0x6F6B (keyExpand sboxP 0xA73B) = 0x1105 := by decide +kernel
theorem test_dec_S : decrypt sboxS 0x1234 (keyExpand sboxS 0xA73B) = 0xFB67 := by decide +kernel

/-- KEY = A73B's schedule under SBOX_P. -/
def scheduleP : Vector KWord 8 := #v[0xA7, 0x3B, 0x76, 0x4D, 0xC4, 0x89, 0x27, 0xAE]

/-- A state after reset with some words written to IN. -/
def withIn (m : Memory) : State := { State.reset with mem := m }

/-- V-ECB-1. -/
theorem test_ecb_enc : (ecbLoop (fun p => encrypt sboxP p scheduleP) 2 0 (withIn [(0x100, 0x6F6B), (0x101, 0x2D3B)])).mem =
    [(0x100, 0x6F6B), (0x101, 0x2D3B), (0x200, 0xB4DF), (0x201, 0x748A)] := by decide +kernel
/-- V-ECB-3. -/
theorem test_ecb_dec : (ecbLoop (fun c => decrypt sboxP c scheduleP) 2 0 (withIn [(0x100, 0xB4DF), (0x101, 0x748A)])).mem =
    [(0x100, 0xB4DF), (0x101, 0x748A), (0x200, 0x6F6B), (0x201, 0x2D3B)] := by decide +kernel
/-- V-CBC-1: OUT[1], OUT[2]; OUT[0] is the command's own IV write. -/
theorem test_cbc_enc : (cbcEncLoop (fun p => encrypt sboxP p scheduleP) 2 0 0x1234 (withIn [(0x100, 0x6F6B), (0x101, 0x6F6B)])).mem =
    [(0x100, 0x6F6B), (0x101, 0x6F6B), (0x201, 0x0148), (0x202, 0x0505)] := by decide +kernel
/-- V-CBC-5. -/
theorem test_cbc_dec :
    (cbcDecLoop (fun c => decrypt sboxP c scheduleP) 2 0 0x1234 (withIn [(0x100, 0x1234), (0x101, 0x0148), (0x102, 0x0505)])).mem =
    [(0x100, 0x1234), (0x101, 0x0148), (0x102, 0x0505), (0x200, 0x6F6B), (0x201, 0x6F6B)] := by decide +kernel

/-! ## One step from reset with a placed word (V-CMD) -/

theorem test_step_nop : after (fun t => t.status.word) (step (State.reset.withFetchWord 16 0x0000)) = some 0x0002 := by decide
theorem test_step_gfmul : after State.dout (step (State.reset.withFetchWord 16 0x104E)) = some 0x000D := by decide
theorem test_step_shiftrows : after State.dout (step ({ State.reset with din := 0x1234 }.withFetchWord 16 0x4000)) = some 0x1432 := by
  decide
theorem test_step_mixcol : after State.dout (step ({ State.reset with din := 0x1234 }.withFetchWord 16 0x5000)) = some 0x9608 := by
  decide
theorem test_step_invmixcol : after State.dout (step ({ State.reset with din := 0x9608 }.withFetchWord 16 0x6000)) = some 0x1234 := by
  decide
theorem test_step_addrk :
    after State.dout (step ({ State.reset with din := 0x6F6B, w := scheduleP }.withFetchWord 16 0x7003)) = some 0x48C5 := by decide
theorem test_step_keyexp :
    after (fun t => (t.w[0], t.w[1])) (step ({ State.reset with key := 0xA73B }.withFetchWord 16 0x8000)) = some (0xA7, 0x3B) := by decide
theorem test_step_ecb_enc_none : after (fun t => t.status.word) (step (State.reset.withFetchWord 16 0xB000)) = some 0x0022 := by decide
theorem test_step_cbc_enc_g_none :
    after (fun t => (t.status.word, t.ivDraws)) (step (State.reset.withFetchWord 16 0xD100)) = some (0x0022, 0) := by decide
theorem test_step_cbc_enc_g_one :
    after (fun t => (t.status.word, t.ivDraws)) (step (State.reset.withFetchWord 16 0xD1FF)) = some (0x0002, 1) := by decide
theorem test_step_cbc_dec_one : after (fun t => t.status.word) (step (State.reset.withFetchWord 16 0xE001)) = some 0x0022 := by decide
theorem test_step_illegal :
    after (fun t => (t.status.word, t.cmd, t.w)) (step (State.reset.withFetchWord 16 0xF0AB)) =
      some (0x0032, 0xF0AB, State.reset.w) := by decide

/-! ## The bus and the host notation -/

theorem test_read_status_pending : (State.reset.issue 0x9000).busRead 0x001 = 0x0001 := by decide
theorem test_map_edges :
    [0x005, 0x006, 0x007, 0x008, 0x00F, 0x010, 0x013, 0x014, 0x0FF, 0x100, 0x1FF, 0x200, 0x2FF, 0x300, 0x3FF].map locate =
      [.dout, .reserved, .reserved, .keyWord 0, .keyWord 7, .roundKey 0, .roundKey 3, .reserved, .reserved, .inBuf 0, .inBuf 255,
        .outBuf 0, .outBuf 255, .reserved, .reserved] := by decide
theorem test_write_in : (State.reset.busWrite 0x1FF 0xBEEF).mem = [(0x1FF, 0xBEEF)] := by decide
theorem test_encrypt_line :
    (HostLine.encrypt 0xA73B 0x6F6B).events? =
      some [.write 0x002 0xA73B, .write 0x004 0x6F6B, .write 0x000 0x9000, .wait, .read 0x005] := by decide
theorem test_inverse_spellings :
    ((HostLine.command invShiftRowsLine).events?, (HostLine.issue (invAddRkLine 2)).events?) =
      (some [.write 0x000 0x4000, .wait], some [.write 0x000 0x7002]) := by decide
theorem test_immediate_refused : (HostLine.command ⟨0x7, .index 4⟩).events? = none := by decide
/-- S7, S8, S9 of 95_test_vectors.md. -/
theorem test_text_errors :
    ((TextCall.encryptBlock ['6', 'F', '6'] ['A', '7', '3', 'B']).events.toOption,
      (TextCall.encryptEcb ['6', 'F', '6', 'B', '2'] ['A', '7', '3', 'B']).check,
      (TextCall.decryptCbc ['1', '2', '3', '4'] ['x']).check) =
      (none, .error .alignmentError, .error .alignmentError) := by decide
theorem test_text_bad_block :
    (TextCall.encryptEcb ['6', 'F', '6', 'B', '2', 'g', '3', 'B'] ['A', '7', '3', 'B']).check = .error (.formatError (some 1)) := by decide

/-! ## Witnesses: for each statement with hypotheses, cases that meet them, at the edges of each clause -/

theorem witness_EncodeOfDecodeIsTheWord : decode 0x1023 = .ok (.gfmul 2 3) := by decide

theorem witness_IllegalWordsAreAcceptedAndCompleteIllegal :
    State.reset.status.busy = false ∧ decode 0xFFFF = .error .reservedOpcode ∧ decode 0x0001 = .error .reservedBitSet ∧
    decode 0x1100 = .error .reservedBitSet ∧ decode 0x7004 = .error .reservedBitSet ∧ decode 0xE100 = .error .reservedBitSet ∧
    decode 0xD200 = .error .reservedBitSet := by decide

theorem witness_NopOnlyCompletes : (0x001 : BitVec 12) ≠ 0 ∧ (0xFFF : BitVec 12) ≠ 0 := by decide

theorem witness_GfmulWritesTheProduct : (0x1 : Nibble) ≠ 0 ∧ (0x8 : Nibble) ≠ 0 := by decide

theorem witness_GfMulIsMultiplicationInTheField : (0x1 : Nibble) ≠ 0 ∧ (0xF : Nibble) ≠ 0 ∧ gfMul 0xF 8 = 1 := by decide

/-- A block in nibbles, and the candidate tables as S-boxes. -/
theorem witness_SubnibSubstitutesEachNibble :
    (0x800 : BitVec 12) ≠ 0 ∧ (∀ x, sboxP x = candidateP x) ∧ ∃ (s : State) (n0 n1 n2 n3 : Nibble), s.din = n0 ++ n1 ++ n2 ++ n3 :=
  ⟨by decide, by decide, { State.reset with din := 0x0123 }, 0, 1, 2, 3, rfl⟩

theorem witness_MixcolMultipliesTheColumns :
    (0x800 : BitVec 12) ≠ 0 ∧ ∃ (s : State) (n0 n1 n2 n3 : Nibble), s.din = n0 ++ n1 ++ n2 ++ n3 :=
  ⟨by decide, { State.reset with din := 0x1234 }, 1, 2, 3, 4, rfl⟩

theorem witness_InvmixcolMultipliesTheColumnsBack :
    (0x800 : BitVec 12) ≠ 0 ∧ ∃ (s : State) (n0 n1 n2 n3 : Nibble), s.din = n0 ++ n1 ++ n2 ++ n3 :=
  ⟨by decide, { State.reset with din := 0x9608 }, 9, 6, 0, 8, rfl⟩

theorem witness_KeyexpWritesTheSchedule : (0x001 : BitVec 12) ≠ 0 ∧ ∀ x, sboxP x = candidateP x := by decide

theorem witness_EncEncryptsDin :
    (0x001 : BitVec 12) ≠ 0 ∧ (∀ x, sboxP x = candidateP x) ∧ ∀ x, sboxS x = candidateS x := by decide

theorem witness_RoundKeysAreAViewOfW : State.reset.status.busy = false ∧ ∀ r : Fin 4, roundKey scheduleP r = roundKey scheduleP r := by
  decide

theorem witness_InvsubnibSubstitutesBack : ∃ t, exec .subnib State.reset = .next t := ⟨_, rfl⟩

theorem witness_ShiftrowsSwapsNibblesOneAndThree : (0xF3A3 : Block).extractLsb' 8 4 = (0xF3A3 : Block).extractLsb' 0 4 := by decide

theorem witness_AddrkXorsTheCurrentRoundKey :
    State.reset.w = State.reset.w ∧ ∃ s t : State, s.key = 0xA73B ∧ s.din = 0x6F6B ∧ exec .keyexp s = .next t :=
  ⟨rfl, { State.reset with key := 0xA73B, din := 0x6F6B }, _, rfl, rfl, rfl⟩

theorem witness_DecDecryptsDin : ∃ t, exec .enc State.reset = .next t := ⟨_, rfl⟩

theorem witness_TooFewBlocksEndsWithAlign : (0 : BitVec 8) < 2 ∧ (1 : BitVec 8) < 2 := by decide

theorem witness_EcbEncEncryptsEachBlock :
    (1 : BitVec 8) ≠ 0 ∧ 0 < (1 : BitVec 8).toNat ∧ (255 : BitVec 8) ≠ 0 ∧ 254 < (255 : BitVec 8).toNat ∧
    ¬ (0x200 ≤ 0x1FF ∧ 0x1FF < 0x200 + 255) ∧ ¬ (0x200 ≤ 0x2FF ∧ 0x2FF < 0x200 + 255) ∧
    (withIn [(0x100, 0x6F6B), (0x101, 0x6F6B)]).inWord 0 = (withIn [(0x100, 0x6F6B), (0x101, 0x6F6B)]).inWord 1 := by decide

/-- The state a command leads to from a state. -/
def next (i : Instr) (s : State) : State :=
  match exec i s with
  | .next t => t
  | .fault _ => s
  | .refused _ => s

theorem witness_EcbDecDecryptsEachBlock :
    ∃ s t u : State, (1 : BitVec 8) ≠ 0 ∧ exec (.ecbEnc 1) s = .next t ∧ u.key = s.key ∧
      ∀ j, j < (1 : BitVec 8).toNat → u.inWord j = t.outWord j := by
  refine ⟨State.reset, next (.ecbEnc 1) State.reset, withIn [(0x100, (next (.ecbEnc 1) State.reset).outWord 0)], by decide, rfl, rfl, fun j hj => ?_⟩
  obtain rfl : j = 0 := by simpa using hj
  rfl

theorem witness_CbcEncChainsTheCiphertext :
    (1 : BitVec 8) ≠ 0 ∧ 254 < (255 : BitVec 8).toNat ∧ ¬ (0x200 ≤ 0x1FF ∧ 0x1FF ≤ 0x200 + 255) ∧
    ¬ (0x200 ≤ 0x202 ∧ 0x202 ≤ 0x200 + 1) := by decide

theorem witness_CbcDecChainsTheInputCiphertext :
    2 ≤ (2 : BitVec 8).toNat ∧ 0 < (2 : BitVec 8).toNat - 1 ∧ 2 ≤ (255 : BitVec 8).toNat ∧ 253 < (255 : BitVec 8).toNat - 1 := by decide

theorem witness_CbcDecOfCbcEncRestoresTheMessage :
    ∃ s t u : State, 1 ≤ (1 : BitVec 8).toNat ∧ (2 : BitVec 8).toNat = (1 : BitVec 8).toNat + 1 ∧
      exec (.cbcEnc true 1) s = .next t ∧ u.key = s.key ∧ ∀ j, j ≤ (1 : BitVec 8).toNat → u.inWord j = t.outWord j := by
  refine ⟨State.reset, next (.cbcEnc true 1) State.reset,
    withIn [(0x100, (next (.cbcEnc true 1) State.reset).outWord 0), (0x101, (next (.cbcEnc true 1) State.reset).outWord 1)],
    by decide, by decide, rfl, rfl, fun j hj => ?_⟩
  have : j = 0 ∨ j = 1 := by
    have : j ≤ 1 := hj
    omega
  rcases this with rfl | rfl
  · rfl
  · rfl

theorem witness_CbcRepeatsExactlyAtAFixedPoint :
    ∃ s t : State, 0 + 1 < (2 : BitVec 8).toNat ∧ exec (.cbcEnc false 2) s = .next t ∧ s.inWord (0 + 1) = s.inWord 0 :=
  ⟨withIn [(0x100, 0x6F6B), (0x101, 0x6F6B)], _, by decide, rfl, by decide⟩

theorem witness_CbcEncSplitsWithTheCarriedChainValue :
    ∃ s t u u' v v' : State, 1 ≤ (1 : BitVec 8).toNat ∧ (2 : BitVec 8).toNat = (1 : BitVec 8).toNat + (1 : BitVec 8).toNat ∧
      exec (.cbcEnc true 2) s = .next t ∧ u.key = s.key ∧ u.iv = s.iv ∧ u.ivDraws = s.ivDraws ∧
      (∀ j, j < (1 : BitVec 8).toNat → u.inWord j = s.inWord j) ∧ exec (.cbcEnc true 1) u = .next u' ∧
      v.key = s.key ∧ v.iv = u'.outWord (1 : BitVec 8).toNat ∧
      (∀ j, j < (1 : BitVec 8).toNat → v.inWord j = s.inWord ((1 : BitVec 8).toNat + j)) ∧ exec (.cbcEnc false 1) v = .next v' := by
  refine ⟨withIn [(0x100, 1), (0x101, 2)], _, withIn [(0x100, 1)], next (.cbcEnc true 1) (withIn [(0x100, 1)]), { withIn [(0x100, 2)] with iv := (next (.cbcEnc true 1) (withIn [(0x100, 1)])).outWord 1 }, _,
    by decide, by decide, rfl, rfl, rfl, rfl, fun j hj => ?_, rfl, rfl, rfl, fun j hj => ?_, rfl⟩
  · obtain rfl : j = 0 := by simpa using hj
    decide
  · obtain rfl : j = 0 := by simpa using hj
    decide

/-- A pending NOP and a pending illegal word, with the host idle or waiting. -/
theorem witness_StepRunsTheDecodedCommand :
    (State.reset.issue 0x0000).status.busy = true ∧ (State.reset.issue 0x0000).host = [] ∧ decode (State.reset.issue 0x0000).cmd = .ok .nop ∧
    (State.reset.withFetchWord 16 0xF000).status.busy = true ∧ (State.reset.withFetchWord 16 0xF000).host = [.wait] ∧
    decode (State.reset.withFetchWord 16 0xF000).cmd = .error .reservedOpcode := by decide

theorem witness_StepServesTheHostOrCompletes :
    State.reset.status.busy = false ∧ State.reset.host = [] ∧ { State.reset with host := [.wait] }.host = .wait :: [] ∧
    { State.reset.issue 0x0000 with host := [.read 0x003] }.status.busy = true ∧
    { State.reset.issue 0x0000 with host := [.read 0x003] }.host = .read 0x003 :: [] := by decide

theorem witness_PendingCommandCompletesWithinBound :
    { State.reset.issue 0x9000 with host := [.write 0x004 0x1111] }.status.busy = true ∧
    { State.reset.issue 0x9000 with host := [.write 0x004 0x1111] }.noResetAhead = true := by decide

theorem witness_ErrorsWriteOnlyStatus :
    (∃ t, (State.reset.issue 0xF000).complete = .next t ∧ t.status.err ≠ 0) ∧
    (∃ t, (State.reset.issue 0xB000).complete = .next t ∧ t.status.err ≠ 0) :=
  ⟨⟨_, rfl, by decide⟩, ⟨_, rfl, by decide⟩⟩

theorem witness_OutcomeDependsOnTheCommandWordAlone :
    ∃ s s' t t' : State, s.cmd = s'.cmd ∧ s.complete = .next t ∧ s'.complete = .next t' :=
  ⟨State.reset, { State.reset with key := 1 }, _, _, rfl, rfl, rfl⟩

theorem witness_CommandsWriteOnlyTheirRegisters :
    (∃ t, exec .nop State.reset = .next t) ∧ (∃ t, exec (.addrk 3) State.reset = .next t) ∧
    (∃ t, exec (.cbcEnc false 1) State.reset = .next t) ∧ (∃ t, exec (.cbcDec 2) State.reset = .next t) :=
  ⟨⟨_, rfl⟩, ⟨_, rfl⟩, ⟨_, rfl⟩, ⟨_, rfl⟩⟩

theorem witness_CmdWriteIssues : State.reset.status.busy = false ∧ (State.reset.issue 0x9000).status.busy = true := by decide

theorem witness_HostBusPrimitives :
    (0x100 : BusAddr).toNat = 0x100 + 0 ∧ (0x1FF : BusAddr).toNat = 0x100 + 255 ∧ (0x008 : BusAddr).toNat = 0x008 + (0 : Fin 8).val ∧
    (0x00F : BusAddr).toNat = 0x008 + (7 : Fin 8).val ∧ (0x010 : BusAddr).toNat = 0x010 + (0 : Fin 4).val ∧
    (0x013 : BusAddr).toNat = 0x010 + (3 : Fin 4).val ∧ (0x200 : BusAddr).toNat = 0x200 + 0 ∧
    (0x2FF : BusAddr).toNat = 0x200 + 255 ∧ State.reset.status.busy = false := by decide

theorem witness_InWordsReadBackWhatTheHostWrote :
    State.reset.status.busy = false ∧ 0x100 ≤ (0x100 : BusAddr).toNat ∧ (0x100 : BusAddr).toNat < 0x200 ∧
    0x100 ≤ (0x1FF : BusAddr).toNat ∧ (0x1FF : BusAddr).toNat < 0x200 := by decide

theorem witness_ReservedAddressesReadZeroAndIgnoreWrites :
    (0x006 : BusAddr).toNat = 0x006 ∧ (0x007 : BusAddr).toNat = 0x007 ∧ 0x014 ≤ (0x014 : BusAddr).toNat ∧
    (0x0FF : BusAddr).toNat < 0x100 ∧ 0x014 ≤ (0x0FF : BusAddr).toNat ∧ 0x300 ≤ (0x300 : BusAddr).toNat ∧
    0x300 ≤ (0x3FF : BusAddr).toNat := by decide

theorem witness_ReadOnlyLocationsIgnoreWrites :
    (0x008 ≤ (0x008 : BusAddr).toNat ∧ (0x008 : BusAddr).toNat < 0x014) ∧ (0x008 ≤ (0x013 : BusAddr).toNat ∧ (0x013 : BusAddr).toNat < 0x014) ∧
    (0x200 ≤ (0x200 : BusAddr).toNat ∧ (0x200 : BusAddr).toNat < 0x300) ∧
    (0x200 ≤ (0x2FF : BusAddr).toNat ∧ (0x2FF : BusAddr).toNat < 0x300) := by decide

theorem witness_WritesWhileBusyAreIgnored : (State.reset.issue 0x9000).status.busy = true := by decide

theorem witness_ResetAbandonsThePendingCommand :
    ∃ r : State, (State.reset.issue 0xD101).status.busy = true ∧ (State.reset.issue 0xD101).access .reset = r := ⟨_, rfl, rfl⟩

theorem witness_KeyWriteLeavesTheRoundKeys : { State.reset with w := scheduleP }.status.busy = false := by decide

theorem witness_ReadsWhileBusy : (State.reset.issue 0x9000).Inv = true ∧ (State.reset.issue 0x9000).status.busy = true := by decide

theorem witness_ReadsHaveNoSideEffect :
    { State.reset with host := [.read 0x003] }.host = .read 0x003 :: [] ∧ { State.reset with host := [.read 0x003] }.status.busy = false ∧
    (locate 0x001).unsettled = false := by decide

theorem witness_StatusWordHoldsItsFields : State.reset.status.busy = false ∧ ∃ t, State.reset.complete = .next t := ⟨rfl, _, rfl⟩

theorem witness_ResetSetsEveryRegister : 
    (∃ r : State, r = State.reset) ∧ ∃ r s : State, r = s.access .reset := ⟨⟨_, rfl⟩, _, State.reset.issue 0xD101, rfl⟩

theorem witness_StepKeepsTheStateSound : State.reset.Inv = true ∧ step State.reset = .next State.reset := ⟨rfl, rfl⟩

theorem witness_BlockTextRoundTrips : parseBlock ['6', 'f', '6', 'B'] = some 0x6F6B := by decide

theorem witness_UnalignedTextIsAnAlignmentError :
    ([] : Text).length = 0 ∧ (['6', 'F', '6', 'B', '2'] : Text).length % 4 ≠ 0 ∧ (['1', '2', '3', '4'] : Text).length < 8 ∧
    (['1', '2', '3', '4', '5', '6', '7', '8', '9'] : Text).length % 4 ≠ 0 := by decide

end Sys2Proof.Tests
end

section
/-! Family 10_state.md: what the host reads at the round-key and STATUS addresses, how every command ends, and the two
statements about the round-key view (R25) and the STATUS word (R18). -/

namespace Sys2Proof.Machine

/-! ### Bus reads and writes that the BUSY rules do not touch -/

/-- Idle, a read returns what the location holds (R38). -/
theorem State.busRead_of_idle {s : State} (hb : s.status.busy = false) (a : BusAddr) : s.busRead a = s.stored (locate a) := by
  simp [State.busRead, hb]

/-- A location that R140 does not name is read the same while BUSY = 1. -/
theorem State.busRead_of_settled (s : State) {a : BusAddr} (ha : (locate a).unsettled = false) :
    s.busRead a = s.stored (locate a) := by
  simp [State.busRead, ha]

/-- R107: idle, a CMD write issues. -/
theorem State.busWrite_of_cmd {s : State} {a : BusAddr} (hb : s.status.busy = false) (ha : locate a = .cmd) (v : Block) :
    s.busWrite a v = s.issue v := by
  simp [State.busWrite, hb, ha]

/-- R18: STATUS ignores host writes, with or without a command pending. -/
theorem State.busWrite_of_status (s : State) {a : BusAddr} (ha : locate a = .status) (v : Block) : s.busWrite a v = s := by
  simp [State.busWrite, ha]

/-- R18, R140: STATUS reads its own word, with or without a command pending. -/
@[simp] theorem State.busRead_status (s : State) : s.busRead 0x001 = s.status.word := s.busRead_of_settled rfl

@[simp] theorem State.access_read_status (s : State) (a : BusAddr) : (s.access (.read a)).status = s.status := rfl

/-! ### The round keys as a view of W -/

/-- R25: idle, address 0x010 + r reads the round key of index r. -/
theorem State.busRead_roundKey {s : State} (hb : s.status.busy = false) (r : Fin 4) {a : BusAddr}
    (ha : a.toNat = 0x010 + r.val) : s.busRead a = roundKey s.w r := by
  rw [State.busRead_of_idle hb, locate_roundKey r.isLt ha]
  rfl

/-- A concatenation determines both of its parts. -/
theorem append_eq_append_iff {m n : Nat} (a a' : BitVec m) (b b' : BitVec n) : a ++ b = a' ++ b' ↔ a = a' ∧ b = b' := by
  refine ⟨fun h => ⟨?_, ?_⟩, fun ⟨ha, hb⟩ => by rw [ha, hb]⟩
  · simpa only [BitVec.extractLsb'_append_eq_left] using congrArg (BitVec.extractLsb' n m) h
  · simpa only [BitVec.extractLsb'_append_eq_right] using congrArg (BitVec.extractLsb' 0 n) h

/-- A round key determines the two words of W it shows. -/
theorem roundKey_eq_iff (w v : Vector KWord 8) (r : Fin 4) :
    roundKey w r = roundKey v r ↔ w[2 * r.val] = v[2 * r.val] ∧ w[2 * r.val + 1] = v[2 * r.val + 1] :=
  append_eq_append_iff _ _ _ _

/-- R25: the four round keys together determine W, since word `i` of W is in round key `i / 2`. -/
theorem roundKeys_eq_iff (w v : Vector KWord 8) : (∀ r : Fin 4, roundKey w r = roundKey v r) ↔ w = v := by
  refine ⟨fun h => Vector.ext fun i hi => ?_, fun h r => by rw [h]⟩
  obtain ⟨heven, hodd⟩ := (roundKey_eq_iff w v ⟨i / 2, by omega⟩).mp (h _)
  obtain hi2 | hi2 : i = 2 * (i / 2) ∨ i = 2 * (i / 2) + 1 := by omega
  · simpa only [← hi2] using heven
  · simpa only [← hi2] using hodd

/-- R25: no round key shows anything but 0 after reset. -/
theorem roundKey_reset (r : Fin 4) : roundKey State.reset.w r = 0x0000 := by
  revert r
  decide

/-! ### The fields of the STATUS word (R18) -/

@[simp] theorem Status.word_busy (st : Status) : st.word.extractLsb' 0 1 = BitVec.ofBool st.busy := by
  unfold Status.word
  exact BitVec.extractLsb'_append_eq_right

@[simp] theorem Status.word_done (st : Status) : st.word.extractLsb' 1 1 = BitVec.ofBool st.done := by
  unfold Status.word
  rw [BitVec.extractLsb'_append_eq_of_le (by omega)]
  exact BitVec.extractLsb'_append_eq_right

@[simp] theorem Status.word_bits_3_2 (st : Status) : st.word.extractLsb' 2 2 = 0 := by
  unfold Status.word
  rw [BitVec.extractLsb'_append_eq_of_le (by omega), BitVec.extractLsb'_append_eq_of_le (by omega)]
  exact BitVec.extractLsb'_append_eq_right

@[simp] theorem Status.word_err (st : Status) : st.word.extractLsb' 4 4 = st.err := by
  unfold Status.word
  rw [BitVec.extractLsb'_append_eq_of_le (by omega), BitVec.extractLsb'_append_eq_of_le (by omega),
    BitVec.extractLsb'_append_eq_of_le (by omega)]
  exact BitVec.extractLsb'_append_eq_right

@[simp] theorem Status.word_bits_15_8 (st : Status) : st.word.extractLsb' 8 8 = 0 := by
  unfold Status.word
  rw [BitVec.extractLsb'_append_eq_of_le (by omega), BitVec.extractLsb'_append_eq_of_le (by omega),
    BitVec.extractLsb'_append_eq_of_le (by omega)]
  exact BitVec.extractLsb'_append_eq_left

/-! ### How a command ends -/

/-- Every command ends in one of two ways: ALIGN raised on the state it started from, or a run to its completion update
(R109, R112). The message commands are one count check (R97) around the two. -/
theorem exec_align_or_finish (i : Instr) (s : State) :
    exec i s = .next (s.raiseErr .align) ∨ ∃ u, exec i s = .next (State.finish u) := by
  cases i with
  | nop | gfmul a b | subnib | invsubnib | shiftrows | mixcol | invmixcol | addrk r | keyexp | enc | dec => exact .inr ⟨_, rfl⟩
  | ecbEnc n | ecbDec n | cbcEnc g n | cbcDec n => exact (ite_eq_or_eq _ _ _).imp_right fun h => ⟨_, h⟩

/-- R109, R122: a completion, legal or not, leaves STATUS at a completed value. -/
theorem State.complete_status {s t : State} (h : s.complete = .next t) : ∃ e, t.status = Status.completed e := by
  cases hd : decode s.cmd with
  | error _ =>
    cases (State.complete_error hd).symm.trans h
    exact ⟨.illegal, rfl⟩
  | ok i =>
    rw [State.complete_ok hd] at h
    obtain halign | ⟨u, hfinish⟩ := exec_align_or_finish i s
    · cases halign.symm.trans h
      exact ⟨.align, rfl⟩
    · cases hfinish.symm.trans h
      exact ⟨.none, rfl⟩

end Sys2Proof.Machine

namespace Sys2Proof.Proofs

open Sys2Proof.Machine

/-- Settles O10: each read goes through `locate_roundKey`, and a concatenation determines its parts. -/
theorem roundKeysAreAViewOfW : Obligations.RoundKeysAreAViewOfW := by
  refine ⟨fun s hb => ⟨?rk0, ?rk1, ?rk2, ?rk3⟩, fun s t => roundKeys_eq_iff s.w t.w, roundKey_reset⟩
  case rk0 => exact State.busRead_roundKey hb 0 rfl
  case rk1 => exact State.busRead_roundKey hb 1 rfl
  case rk2 => exact State.busRead_roundKey hb 2 rfl
  case rk3 => exact State.busRead_roundKey hb 3 rfl

/-- Settles O49: STATUS is never unsettled, so a read is its word, and a completion can only end at `Status.completed`. -/
theorem statusWordHoldsItsFields : Obligations.StatusWordHoldsItsFields := by
  intro s
  rw [State.busRead_status]
  refine ⟨s.status.word_busy, s.status.word_done, s.status.word_bits_3_2, s.status.word_err, s.status.word_bits_15_8,
    fun v => s.busWrite_of_status rfl v, s.access_read_status 0x001, rfl, fun v hb => ?issue, fun t ht => ?completion⟩
  case issue =>
    rw [State.busWrite_of_cmd hb rfl, State.issue_status]
    rfl
  case completion =>
    obtain ⟨e, he⟩ := State.complete_status ht
    simp [he]

end Sys2Proof.Proofs
end

section
/-! Family 20_memory.md: the host's two bus primitives address by address (R38), the reserved addresses (R36) and the
read-only locations (R37). -/

namespace Sys2Proof.Machine

/-! ### Reads, location by location -/

/-- R24: a key-schedule word reads with eight zero bits above it. -/
theorem zext16_kword (u : KWord) : zext16 u = 0#8 ++ u :=
  BitVec.setWidth_eq_append (by omega)

@[simp] theorem State.busRead_cmd (s : State) : s.busRead 0x000 = s.cmd := s.busRead_of_settled rfl
@[simp] theorem State.busRead_key (s : State) : s.busRead 0x002 = s.key := s.busRead_of_settled rfl
@[simp] theorem State.busRead_din (s : State) : s.busRead 0x004 = s.din := s.busRead_of_settled rfl

theorem State.busRead_iv {s : State} (hb : s.status.busy = false) : s.busRead 0x003 = s.iv := State.busRead_of_idle hb _

theorem State.busRead_dout {s : State} (hb : s.status.busy = false) : s.busRead 0x005 = s.dout := State.busRead_of_idle hb _

/-- R24: idle, address 0x008 + i reads word `i` of W, zero-extended. -/
theorem State.busRead_keyWord {s : State} (hb : s.status.busy = false) (i : Fin 8) {a : BusAddr}
    (ha : a.toNat = 0x008 + i.val) : s.busRead a = 0#8 ++ s.w[i.val] := by
  rw [State.busRead_of_idle hb, locate_keyWord i.isLt ha]
  exact zext16_kword _

/-- R26, R140: an IN word is read the same with or without a command pending. -/
theorem State.busRead_inBuf (s : State) {a : BusAddr} {i : Nat} (hi : i < 256) (ha : a.toNat = 0x100 + i) :
    s.busRead a = s.inWord i := by
  have hl := locate_inBuf hi ha
  rw [s.busRead_of_settled (by rw [hl]; rfl), hl]
  rfl

/-- R27: idle, address 0x200 + i reads OUT[i]. -/
theorem State.busRead_outBuf {s : State} (hb : s.status.busy = false) {a : BusAddr} {i : Nat} (hi : i < 256)
    (ha : a.toNat = 0x200 + i) : s.busRead a = s.outWord i := by
  rw [State.busRead_of_idle hb, locate_outBuf hi ha]
  rfl

/-- R36: a reserved location reads 0, with or without a command pending. -/
theorem State.busRead_of_reserved (s : State) {a : BusAddr} (ha : locate a = .reserved) : s.busRead a = 0x0000 := by
  rw [s.busRead_of_settled (by rw [ha]; rfl), ha]
  rfl

/-! ### Writes, location by location -/

/-- The locations a host write can change (R38): CMD, KEY, IV, DIN and IN. The others are read-only or reserved
(`State.busWrite_of_not_writable`). -/
def Location.writable : Location → Bool
  | .cmd | .key | .iv | .din | .inBuf _ => true
  | .status | .dout | .keyWord _ | .roundKey _ | .outBuf _ | .reserved => false

/-- R36, R37: a read-only or reserved location ignores host writes, with or without a command pending. -/
theorem State.busWrite_of_not_writable (s : State) {a : BusAddr} (ha : (locate a).writable = false) (v : Block) :
    s.busWrite a v = s := by
  unfold State.busWrite
  cases hl : locate a with
  | cmd | key | iv | din | inBuf i => simp [hl, Location.writable] at ha
  | status | dout | keyWord i | roundKey r | outBuf i | reserved => exact ite_self s

/-- R35: an address outside CMD, KEY, IV, DIN and the IN window is read-only or reserved: what is left of the map is STATUS,
DOUT, W, RK, OUT and the gaps between them. -/
theorem locate_not_writable {a : BusAddr} (hcmd : a ≠ 0x000) (hkey : a ≠ 0x002) (hiv : a ≠ 0x003) (hdin : a ≠ 0x004)
    (hin : ¬ (0x100 ≤ a.toNat ∧ a.toNat ≤ 0x1FF)) : (locate a).writable = false := by
  have hmap : a = 0x001 ∨ a = 0x005 ∨ (0x008 ≤ a.toNat ∧ a.toNat < 0x010) ∨ (0x010 ≤ a.toNat ∧ a.toNat < 0x014) ∨
      (0x200 ≤ a.toNat ∧ a.toNat < 0x300) ∨
      (a.toNat = 0x006 ∨ a.toNat = 0x007 ∨ (0x014 ≤ a.toNat ∧ a.toNat < 0x100) ∨ 0x300 ≤ a.toNat) := by
    bv_omega
  obtain rfl | rfl | hw | hrk | hout | hres := hmap
  · rfl
  · rfl
  · rw [locate_keyWord (i := a.toNat - 0x008) (by omega) (by omega)]
    rfl
  · rw [locate_roundKey (r := a.toNat - 0x010) (by omega) (by omega)]
    rfl
  · rw [locate_outBuf (i := a.toNat - 0x200) (by omega) (by omega)]
    rfl
  · rw [locate_reserved hres]
    rfl

theorem State.busWrite_of_busy {s : State} (hb : s.status.busy = true) (a : BusAddr) (v : Block) : s.busWrite a v = s :=
  if_pos hb

theorem State.busWrite_key {s : State} (hb : s.status.busy = false) (v : Block) : s.busWrite 0x002 v = { s with key := v } := by
  rw [State.busWrite, hb]
  rfl

theorem State.busWrite_iv {s : State} (hb : s.status.busy = false) (v : Block) : s.busWrite 0x003 v = { s with iv := v } := by
  rw [State.busWrite, hb]
  rfl

theorem State.busWrite_din {s : State} (hb : s.status.busy = false) (v : Block) : s.busWrite 0x004 v = { s with din := v } := by
  rw [State.busWrite, hb]
  rfl

/-- R26: idle, a host write to 0x100 + i stores IN[i]. -/
theorem State.busWrite_inBuf {s : State} (hb : s.status.busy = false) {a : BusAddr} {i : Nat} (hi : i < 256)
    (ha : a.toNat = 0x100 + i) (v : Block) : s.busWrite a v = s.setIn i v := by
  rw [State.busWrite, hb, locate_inBuf hi ha]
  rfl

end Sys2Proof.Machine

namespace Sys2Proof.Proofs

open Sys2Proof.Machine

/-- Settles O42: a read is the lemma of its location; an idle write is the lemma of the one location the map names, and
nothing outside the writable ones. -/
theorem hostBusPrimitives : Obligations.HostBusPrimitives := by
  refine ⟨fun s a => ⟨?cmd, ?status, ?key, ?din, ?inBuf, fun hb => ⟨?iv, ?dout, ?keyWord, ?roundKey, ?outBuf⟩, ?reserved⟩,
    fun s a v => ?write⟩
  case cmd => rintro rfl; exact s.busRead_cmd
  case status => rintro rfl; exact s.busRead_status
  case key => rintro rfl; exact s.busRead_key
  case din => rintro rfl; exact s.busRead_din
  case inBuf => exact fun _ hi ha => s.busRead_inBuf hi ha
  case iv => rintro rfl; exact State.busRead_iv hb
  case dout => rintro rfl; exact State.busRead_dout hb
  case keyWord => exact fun i ha => State.busRead_keyWord hb i ha
  case roundKey => exact fun r ha => State.busRead_roundKey hb r ha
  case outBuf => exact fun _ hi ha => State.busRead_outBuf hb hi ha
  case reserved => exact fun ha => s.busRead_of_reserved (locate_reserved ha)
  case write =>
    split_ifs with hb hcmd hkey hiv hdin hin
    · exact State.busWrite_of_busy hb a v
    all_goals replace hb := Bool.eq_false_of_not_eq_true hb
    · rw [State.busWrite_of_cmd hb (by rw [hcmd]; rfl)]
      rfl
    · rw [hkey, State.busWrite_key hb]
    · rw [hiv, State.busWrite_iv hb]
    · rw [hdin, State.busWrite_din hb]
    · exact State.busWrite_inBuf hb (by omega) (by omega) v
    · exact s.busWrite_of_not_writable (locate_not_writable hcmd hkey hiv hdin hin) v

/-- Settles O44: the map sends these addresses to the reserved location, which reads 0 and is not writable. -/
theorem reservedAddressesReadZeroAndIgnoreWrites : Obligations.ReservedAddressesReadZeroAndIgnoreWrites := by
  intro s a v ha
  have hl : locate a = .reserved := locate_reserved ha
  exact ⟨s.busRead_of_reserved hl, s.busWrite_of_not_writable (by rw [hl]; rfl) v⟩

/-- Settles O45: none of these addresses is CMD, KEY, IV, DIN or in the IN window, so `locate_not_writable` applies. -/
theorem readOnlyLocationsIgnoreWrites : Obligations.ReadOnlyLocationsIgnoreWrites := by
  intro s a v ha
  refine s.busWrite_of_not_writable (locate_not_writable ?_ ?_ ?_ ?_ ?_) v <;> bv_omega

end Sys2Proof.Proofs
end

section
/-! Family 30_encoding.md: the rows of the opcode map (R53) read as a format with its reserved bits (R51), the words that decode
to nothing, and the statement about illegal words (R54). -/

namespace Sys2Proof

/-! ### The bits a format reserves -/

/-- R51: the low bits of a command word that a format gives to operands; those from here up to OP are reserved
(`legalWord_iff`). -/
def Format.operandBits : Format → Nat
  | .N => 0
  | .G | .M => 8
  | .R => 2
  | .MG => 9

theorem Format.exists_iff {P : Format → Prop} : (∃ f, P f) ↔ P .N ∨ P .G ∨ P .R ∨ P .M ∨ P .MG := by
  constructor
  · rintro ⟨f, hf⟩
    cases f <;> simp only [hf, true_or, or_true]
  · rintro (h | h | h | h | h) <;> exact ⟨_, h⟩

/-- Every bit the format reserves is 0 in the word. -/
def Format.ReservedClear (f : Format) (w : Block) : Prop := w.extractLsb' f.operandBits (12 - f.operandBits) = 0

/-- R51, R54: a legal word has a format, and it clears the bits that format reserves. -/
theorem legalWord_iff (w : Block) :
    legalWord w = true ↔ ∃ f, formatOf (w.extractLsb' 12 4).toNat = some f ∧ f.ReservedClear w := by
  unfold legalWord
  cases formatOf (w.extractLsb' 12 4).toNat with
  | none => simp
  | some f => cases f <;> simp [Format.ReservedClear, Format.operandBits]

/-- R54: the words that are not legal, by format. -/
theorem legalWord_eq_false_iff (w : Block) :
    legalWord w = false ↔ formatOf (w.extractLsb' 12 4).toNat = none ∨
      ∃ f, formatOf (w.extractLsb' 12 4).toNat = some f ∧ ¬ f.ReservedClear w := by
  rw [← Bool.not_eq_true, legalWord_iff]
  cases formatOf (w.extractLsb' 12 4).toNat <;> simp

/-! ### The opcodes of each format (R53) -/

theorem formatOf_eq_none_iff : ∀ op : BitVec 4, formatOf op.toNat = none ↔ op = 0xF#4 := by decide

theorem formatOf_eq_N_iff : ∀ op : BitVec 4, formatOf op.toNat = some .N ↔
    op ∈ [0x0#4, 0x2#4, 0x3#4, 0x4#4, 0x5#4, 0x6#4, 0x8#4, 0x9#4, 0xA#4] := by decide

theorem formatOf_eq_G_iff : ∀ op : BitVec 4, formatOf op.toNat = some .G ↔ op = 0x1#4 := by decide

theorem formatOf_eq_R_iff : ∀ op : BitVec 4, formatOf op.toNat = some .R ↔ op = 0x7#4 := by decide

theorem formatOf_eq_M_iff : ∀ op : BitVec 4, formatOf op.toNat = some .M ↔ op ∈ [0xB#4, 0xC#4, 0xE#4] := by decide

theorem formatOf_eq_MG_iff : ∀ op : BitVec 4, formatOf op.toNat = some .MG ↔ op = 0xD#4 := by decide

/-! ### The rows of the opcode map -/

/-- A mask of all bits from `k` up compares OP, and asks for 0 in the bits from `k` up to OP. -/
theorem and_mask_eq_iff (w : Block) (op : BitVec 4) {k : Nat} (hk : k ≤ 12) :
    w &&& (BitVec.allOnes 16 <<< k) = op ++ 0#12 ↔ w.extractLsb' 12 4 = op ∧ w.extractLsb' k (12 - k) = 0 := by
  simp only [BitVec.eq_of_getLsbD_eq_iff, BitVec.getLsbD_and, BitVec.getLsbD_shiftLeft, BitVec.getLsbD_allOnes,
    BitVec.getLsbD_append, BitVec.getLsbD_extractLsb', BitVec.getLsbD_zero]
  refine ⟨fun h => ⟨fun i hi => ?op, fun i hi => ?reserved⟩, fun ⟨hop, hreserved⟩ i hi => ?bit⟩
  case op =>
    specialize h (12 + i) (by omega)
    grind
  case reserved =>
    specialize h (k + i) (by omega)
    grind
  case bit =>
    obtain hlow | hmid | htop : i < k ∨ (k ≤ i ∧ i < 12) ∨ 12 ≤ i := by omega
    · grind
    · specialize hreserved (i - k) (by omega)
      grind
    · specialize hop (i - 12) (by omega)
      grind

/-- R53: each row has the opcode of a format, no operand in its match, and the mask that ignores just the operand bits. -/
theorem opcodeMap_format : ∀ r ∈ opcodeMap, ∃ f, formatOf (r.mtch.extractLsb' 12 4).toNat = some f ∧
    r.mtch = r.mtch.extractLsb' 12 4 ++ 0#12 ∧ r.mask = BitVec.allOnes 16 <<< f.operandBits := by
  simp only [Format.exists_iff]
  decide

/-- R53: each opcode that has a format has its row. -/
theorem exists_row_of_formatOf : ∀ op : BitVec 4, (formatOf op.toNat).isSome →
    ∃ r ∈ opcodeMap, r.mtch.extractLsb' 12 4 = op := by decide

theorem Format.operandBits_le (f : Format) : f.operandBits ≤ 12 := by cases f <;> decide

/-- A word spells a row when it has the row's opcode and clears the bits that opcode's format reserves. -/
theorem OpcodeRow.spells_iff {r : OpcodeRow} (hr : r ∈ opcodeMap) (w : Block) :
    r.spells w = true ↔ w.extractLsb' 12 4 = r.mtch.extractLsb' 12 4 ∧
      ∃ f, formatOf (r.mtch.extractLsb' 12 4).toNat = some f ∧ f.ReservedClear w := by
  obtain ⟨f, hf, hmtch, hmask⟩ := opcodeMap_format r hr
  have hspells := and_mask_eq_iff w (r.mtch.extractLsb' 12 4) f.operandBits_le
  rw [← hmtch, ← hmask] at hspells
  rw [OpcodeRow.spells, beq_iff_eq, hspells, hf]
  simp [Format.ReservedClear]

/-! ### The words with no decoding -/

/-- R108: the decoder answers an error exactly when no row matches. -/
theorem decode_error_iff_no_row (w : Block) : (∃ e, decode w = .error e) ↔ ¬ ∃ r ∈ opcodeMap, r.spells w = true := by
  unfold decode
  cases hfind : opcodeMap.find? (fun r => r.spells w) with
  | none => simpa using hfind
  | some r =>
    have hspells : r.spells w = true := List.find?_some (p := (OpcodeRow.spells · w)) hfind
    simpa using ⟨r, List.mem_of_find?_eq_some hfind, hspells⟩

/-- The rows cover the legal words and no others. -/
theorem exists_row_iff_legalWord (w : Block) : (∃ r ∈ opcodeMap, r.spells w = true) ↔ legalWord w = true := by
  rw [legalWord_iff]
  constructor
  · rintro ⟨r, hr, hspells⟩
    obtain ⟨hop, hclear⟩ := (OpcodeRow.spells_iff hr w).mp hspells
    rwa [hop]
  · rintro ⟨f, hf, hclear⟩
    obtain ⟨r, hr, hop⟩ := exists_row_of_formatOf _ (Option.isSome_of_eq_some hf)
    exact ⟨r, hr, (OpcodeRow.spells_iff hr w).mpr ⟨hop.symm, f, by rw [hop, hf], hclear⟩⟩

/-- R54: the words with no decoding are the words that the formats make illegal. -/
theorem decode_error_iff (w : Block) : (∃ e, decode w = .error e) ↔ legalWord w = false := by
  rw [decode_error_iff_no_row, exists_row_iff_legalWord, Bool.not_eq_true]

end Sys2Proof

namespace Sys2Proof.Proofs

open Sys2Proof.Machine

/-- Settles O3: the rows of the opcode map cover exactly the legal words, and each disjunct lists the illegal words of one
format; a CMD write issues whatever the word is, and the completion of a word with no decoding raises ILLEGAL. -/
theorem illegalWordsAreAcceptedAndCompleteIllegal : Obligations.IllegalWordsAreAcceptedAndCompleteIllegal := by
  refine ⟨fun w => ?illegal, fun s w e hidle hw => ?accepted⟩
  case illegal =>
    rw [decode_error_iff, legalWord_eq_false_iff, ← formatOf_eq_none_iff, ← formatOf_eq_N_iff, ← formatOf_eq_G_iff,
      ← formatOf_eq_R_iff, ← formatOf_eq_M_iff, ← formatOf_eq_MG_iff]
    exact or_congr_right Format.exists_iff
  case accepted =>
    have hissue : s.busWrite 0x000 w = s.issue w := State.busWrite_of_cmd hidle rfl w
    rw [hissue, State.complete_error (s := s.issue w) hw]
    exact ⟨rfl, rfl⟩

end Sys2Proof.Proofs
end

section
/-! Family 41_gf_arith.md: the decoding of a word from the row it spells, the multiplier's 0 and 1, and the statement about
GFMUL (R62). -/

namespace Sys2Proof

/-! ### Decoding, row by row -/

/-- R53: no two rows of the opcode map share an opcode. -/
theorem opcodeMap_opcode_inj {r r' : OpcodeRow} (hr : r ∈ opcodeMap) (hr' : r' ∈ opcodeMap)
    (h : r.mtch.extractLsb' 12 4 = r'.mtch.extractLsb' 12 4) : r = r' := by
  have hnodup : (opcodeMap.map fun r => r.mtch.extractLsb' 12 4).Nodup := by decide
  exact List.inj_on_of_nodup_map hnodup hr hr' h

/-- R53, R108: a word decodes by the row it spells, since it spells at most one. -/
theorem decode_of_spells {r : OpcodeRow} (hr : r ∈ opcodeMap) {w : Block} (hw : r.spells w = true) :
    decode w = .ok (r.build w) := by
  unfold decode
  cases hfind : opcodeMap.find? (fun r => r.spells w) with
  | none => exact absurd hw (by simpa using List.find?_eq_none.mp hfind r hr)
  | some r' =>
    have hr' := List.mem_of_find?_eq_some hfind
    have hw' : r'.spells w = true := List.find?_some (p := (OpcodeRow.spells · w)) hfind
    obtain ⟨hop, -⟩ := (OpcodeRow.spells_iff hr w).mp hw
    obtain ⟨hop', -⟩ := (OpcodeRow.spells_iff hr' w).mp hw'
    rw [opcodeMap_opcode_inj hr hr' (hop.symm.trans hop')]

/-- R54: a word that sets a bit its format reserves has no decoding. -/
theorem decode_error_of_reserved {w : Block} {f : Format} (hf : formatOf (w.extractLsb' 12 4).toNat = some f)
    (hset : ¬ f.ReservedClear w) : ∃ e, decode w = .error e :=
  (decode_error_iff w).mpr ((legalWord_eq_false_iff w).mpr (.inr ⟨f, hf, hset⟩))

end Sys2Proof

namespace Sys2Proof.Machine

/-! ### The words of GFMUL -/

/-- R62: `0001 0000 aaaa bbbb` decodes to GFMUL a, b. -/
theorem decode_gfmul (a b : Nibble) : decode (0x1#4 ++ 0x0#4 ++ a ++ b) = .ok (.gfmul a b) := by
  have hrow : ⟨0x1000, 0xFF00, fun w => .gfmul (operandA w) (operandB w)⟩ ∈ opcodeMap := List.mem_of_getElem? (i := 1) rfl
  have hspells := (OpcodeRow.spells_iff hrow (0x1#4 ++ 0x0#4 ++ a ++ b)).mpr ⟨nib0_append .., .G, rfl, nib1_append ..⟩
  have ha : operandA (0x1#4 ++ 0x0#4 ++ a ++ b) = a := nib2_append ..
  have hb : operandB (0x1#4 ++ 0x0#4 ++ a ++ b) = b := nib3_append ..
  rw [decode_of_spells hrow hspells]
  simp only [ha, hb]

/-- R54, R62: a set bit in 11:8 of a word with GFMUL's opcode is illegal. -/
theorem decode_gfmul_reserved {x : Nibble} (hx : x ≠ 0) (a b : Nibble) : ∃ e, decode (0x1#4 ++ x ++ a ++ b) = .error e := by
  have hop : (0x1#4 ++ x ++ a ++ b).extractLsb' 12 4 = 0x1#4 := nib0_append ..
  have hbits : (0x1#4 ++ x ++ a ++ b).extractLsb' 8 4 = x := nib1_append ..
  refine decode_error_of_reserved (f := .G) (by rw [hop]; rfl) fun hclear => hx ?_
  exact hbits.symm.trans hclear

/-! ### The multiplier's 0 and 1 -/

/-- A zero multiplicand adds nothing to the accumulator, and doubling keeps it zero. -/
theorem gfMulLoop_zero_left (k : Nat) (p b : Nibble) : gfMulLoop k p 0 b = p := by
  induction k generalizing b with
  | zero => rfl
  | succ k ih => simpa [gfMulLoop] using ih (b >>> 1)

/-- A zero multiplier has no bit that adds to the accumulator, and halving keeps it zero. -/
theorem gfMulLoop_zero_right (k : Nat) (p a : Nibble) : gfMulLoop k p a 0 = p := by
  induction k generalizing a with
  | zero => rfl
  | succ k ih => simpa [gfMulLoop] using ih _

@[simp] theorem gfMul_zero_left (a : Nibble) : gfMul 0 a = 0 := gfMulLoop_zero_left 4 0 a

@[simp] theorem gfMul_zero_right (a : Nibble) : gfMul a 0 = 0 := gfMulLoop_zero_right 4 0 a

@[simp] theorem gfMul_one_left : ∀ a : Nibble, gfMul 1 a = a := by decide

/-- `zext_16` of a nibble puts twelve zero bits above it. -/
theorem zext16_nibble (v : Nibble) : zext16 v = 0#12 ++ v := BitVec.setWidth_eq_append (by omega)

/-- R62, R109: GFMUL writes DOUT and STATUS. -/
theorem exec_gfmul (a b : Nibble) (s : State) :
    exec (.gfmul a b) s = .next { s with dout := 0#12 ++ gfMul a b, status := ended 0 } := by
  rw [← zext16_nibble]
  rfl

end Sys2Proof.Machine

namespace Sys2Proof.Proofs

open Sys2Proof.Machine

/-- Settles O12: the word is decoded by the row it spells, 0 and 1 go through the multiplier's rounds, and the example is the
product 4 * E of the field. -/
theorem gfmulWritesTheProduct : Obligations.GfmulWritesTheProduct :=
  ⟨decode_gfmul, fun _ a b hx => decode_gfmul_reserved hx a b, exec_gfmul,
    fun a => ⟨gfMul_zero_left a, gfMul_zero_right a, gfMul_one_left a⟩, by decide, decode_gfmul 0x4 0xE, by decide⟩

end Sys2Proof.Proofs
end

section
/-! Family 42_block_codec.md: the column-major fill of the state matrix (R64), the round trip of the codec (R66), and the
statement about the block codec. -/

namespace Sys2Proof.Machine

/-- R64: nibbles 0 and 1 fill column 0, nibbles 2 and 3 fill column 1. -/
@[simp] theorem toM_append (n0 n1 n2 n3 : Nibble) :
    toM (n0 ++ n1 ++ n2 ++ n3) = { m00 := n0, m01 := n2, m10 := n1, m11 := n3 } := by
  simp only [toM, nib0_append, nib1_append, nib2_append, nib3_append]

/-- R65, R66: filled and flattened in the same order, a block is the concatenation of its own nibbles. -/
@[simp] theorem fromM_toM (w : Block) : fromM (toM w) = w := (block_eq_append_nibbles w).symm

/-- R65, R66: the flattened matrix is filled again by the nibbles it was made of. -/
@[simp] theorem toM_fromM (m : NibbleMatrix) : toM (fromM m) = m := toM_append m.m00 m.m10 m.m01 m.m11

end Sys2Proof.Machine

namespace Sys2Proof.Proofs

open Sys2Proof.Machine

/-- Settles O7: the lists of R63 and R65 are the definitions; the fill of R64 reads the nibbles of a concatenation, and the
two round trips are `fromM_toM` and `toM_fromM`. -/
theorem blockCodecFillsColumnsAndLosesNothing : Obligations.BlockCodecFillsColumnsAndLosesNothing :=
  ⟨fun _ => rfl, toM_append, fun _ => rfl, fromM_toM, toM_fromM⟩

end Sys2Proof.Proofs
end

section
/-! Family 43_key_schedule.md: the commands with no operands that set a reserved bit (R54), the words of `KeyExpand` one by one
(R72), the zero key and the example key (R76), and the two statements about the key schedule. -/

namespace Sys2Proof

/-- R54: a command with no operands is illegal when any of bits 11:0 is 1. -/
theorem decode_error_of_format_N {op : BitVec 4} (hop : formatOf op.toNat = some .N) {x : BitVec 12} (hx : x ≠ 0) :
    ∃ e, decode (op ++ x) = .error e := by
  have hopcode : (op ++ x).extractLsb' 12 4 = op := BitVec.extractLsb'_append_eq_left
  have hbits : (op ++ x).extractLsb' 0 12 = x := BitVec.extractLsb'_append_eq_right
  exact decode_error_of_reserved (f := .N) (by rwa [hopcode]) fun hclear => hx (hbits.symm.trans hclear)

end Sys2Proof

namespace Sys2Proof.Machine

/-! ### The words of the schedule -/

/-- R69, R70: `SubWord(RotWord(u))` substitutes the low nibble into the high place and the high nibble into the low one. -/
theorem subWord_rotWord (S : SBox) (u : KWord) :
    subWord S (rotWord u) = S (u.extractLsb' 0 4) ++ S (u.extractLsb' 4 4) := by
  rw [subWord, rotWord, wordNib0_kword, wordNib1_kword]
  rfl

/-- R72, the even step: the word two before, the rotated and substituted word before, and the round constant. -/
theorem keyWord_even (S : SBox) (k : Block) (j : Nat) :
    keyWord S k (2 * j + 2) = keyWord S k (2 * j) ^^^
      ((S ((keyWord S k (2 * j + 1)).extractLsb' 0 4) ++ S ((keyWord S k (2 * j + 1)).extractLsb' 4 4)) ^^^ rcon (j + 1)) := by
  have heven : (2 * j + 2) % 2 = 0 := by omega
  have hhalf : (2 * j + 2) / 2 = j + 1 := by omega
  rw [keyWord, if_pos heven, hhalf, subWord_rotWord]

/-- R72, the odd step: the two words before. -/
theorem keyWord_odd (S : SBox) (k : Block) (j : Nat) :
    keyWord S k (2 * j + 3) = keyWord S k (2 * j + 1) ^^^ keyWord S k (2 * j + 2) := by
  have hodd : ¬ (2 * j + 1 + 2) % 2 = 0 := by omega
  rw [keyWord, if_neg hodd]

/-- R76: under the zero key the first computed word is the round constant on `SBOX[0]` twice. -/
theorem keyExpand_zero_two (S : SBox) : (keyExpand S 0x0000)[2] = (S 0 ^^^ 1) ++ S 0 := by
  have h0 : keyWord S 0x0000 0 = 0#8 := rfl
  have h1 : keyWord S 0x0000 1 = 0#8 := rfl
  have hrcon : rcon 1 = 1#4 ++ 0#4 := rfl
  calc keyWord S 0x0000 2
    _ = 0#8 ^^^ ((S 0 ++ S 0) ^^^ (1#4 ++ 0#4)) := by rw [keyWord_even S _ 0, h0, h1, hrcon]; simp
    _ = (S 0 ^^^ 1) ++ S 0 := by rw [BitVec.zero_xor, BitVec.xor_append, BitVec.xor_zero]; rfl

/-- Two nibbles that differ in the round constant are not both 0. -/
theorem xor_one_append_ne_zero (v : Nibble) : (v ^^^ 1) ++ v ≠ 0x00#8 := by
  intro h
  obtain ⟨hhigh, rfl⟩ := (append_eq_append_iff (v ^^^ 1) 0#4 v 0#4).mp h
  exact absurd hhigh (by decide)

/-- The example of R76: KEY = 0xA73B under SBOX_P. -/
theorem keyExpand_candidateP {S : SBox} (hS : ∀ x, S x = candidateP x) :
    keyExpand S 0xA73B = #v[0xA7, 0x3B, 0x76, 0x4D, 0xC4, 0x89, 0x27, 0xAE] := by
  have h0 : keyWord S 0xA73B 0 = 0xA7 := rfl
  have h1 : keyWord S 0xA73B 1 = 0x3B := rfl
  have h2 : keyWord S 0xA73B 2 = 0x76 := by rw [keyWord_even S _ 0, h0, h1, hS, hS]; rfl
  have h3 : keyWord S 0xA73B 3 = 0x4D := by rw [keyWord_odd S _ 0, h1, h2]; rfl
  have h4 : keyWord S 0xA73B 4 = 0xC4 := by rw [keyWord_even S _ 1, h2, h3, hS, hS]; rfl
  have h5 : keyWord S 0xA73B 5 = 0x89 := by rw [keyWord_odd S _ 1, h3, h4]; rfl
  have h6 : keyWord S 0xA73B 6 = 0x27 := by rw [keyWord_even S _ 2, h4, h5, hS, hS]; rfl
  have h7 : keyWord S 0xA73B 7 = 0xAE := by rw [keyWord_odd S _ 2, h5, h6]; rfl
  simp only [keyExpand, h0, h1, h2, h3, h4, h5, h6, h7]

/-- R75, R76, R109: KEYEXP writes W and STATUS. -/
theorem exec_keyexp (s : State) : exec .keyexp s = .next { s with w := keyExpand sbox s.key, status := ended 0 } := rfl

end Sys2Proof.Machine

namespace Sys2Proof.Proofs

open Sys2Proof.Machine

/-- Settles O8: words 0 and 1 are the key's bytes by definition, the others are the even and the odd step of the recurrence. -/
theorem keyScheduleFollowsTheRecurrence : Obligations.KeyScheduleFollowsTheRecurrence := fun S k =>
  ⟨keyExpand S k, rfl, rfl, rfl, keyWord_even S k 0, keyWord_odd S k 0, keyWord_even S k 1, keyWord_odd S k 1,
    keyWord_even S k 2, keyWord_odd S k 2⟩

/-- Settles O19: the word has KEYEXP's opcode and no operand, and the schedules named are the recurrence at their keys. -/
theorem keyexpWritesTheSchedule : Obligations.KeyexpWritesTheSchedule := by
  refine ⟨by decide, fun x hx => decode_error_of_format_N rfl hx, exec_keyexp, fun S => ⟨keyExpand_zero_two S, ?nonzero⟩,
    fun S => ⟨rfl, rfl⟩, fun S hS => keyExpand_candidateP hS⟩
  case nonzero =>
    rw [keyExpand_zero_two]
    exact xor_one_append_ne_zero (S 0)

end Sys2Proof.Proofs
end

section
/-! Family 44_round_transform.md: the round primitives on the nibbles of a block (R78 to R83), the two pipelines as equations
(R85, R86) and the one undoing the other (R87), and the statements about the single-block commands. -/

namespace Sys2Proof

/-! ### The words of ADDRK (R93) -/

/-- R93: `0111 0000 0000 00rr` decodes to ADDRK r. -/
theorem decode_addrk : ∀ r : BitVec 2, decode (0x7#4 ++ 0#10 ++ r) = .ok (.addrk r) := by decide

/-- R54, R93: a set bit in 11:2 of a word with ADDRK's opcode is illegal. -/
theorem decode_addrk_reserved {x : BitVec 10} (hx : x ≠ 0) (r : BitVec 2) : ∃ e, decode (0x7#4 ++ x ++ r) = .error e := by
  have hop : (0x7#4 ++ x ++ r).extractLsb' 12 4 = 0x7#4 := by
    rw [BitVec.extractLsb'_append_eq_of_le (by omega)]
    exact BitVec.extractLsb'_append_eq_left
  have hbits : (0x7#4 ++ x ++ r).extractLsb' 2 10 = x := by
    rw [BitVec.extractLsb'_append_eq_of_le (by omega)]
    exact BitVec.extractLsb'_append_eq_right
  exact decode_error_of_reserved (f := .R) (by rw [hop]; rfl) fun hclear => hx (hbits.symm.trans hclear)

end Sys2Proof

namespace Sys2Proof.Machine

/-! ### Terms that cancel in a xor -/

/-- Adding the same term twice changes nothing. -/
theorem xor_xor_cancel_right {n : Nat} (x z : BitVec n) : x ^^^ z ^^^ z = x := by
  rw [BitVec.xor_assoc, BitVec.xor_self, BitVec.xor_zero]

/-- A term added to both sides of a xor cancels. -/
theorem xor_xor_xor_cancel_right {n : Nat} (x y z : BitVec n) : (x ^^^ z) ^^^ (y ^^^ z) = x ^^^ y := by
  rw [← BitVec.xor_assoc, BitVec.xor_assoc x, BitVec.xor_comm z, ← BitVec.xor_assoc, xor_xor_cancel_right]

/-! ### The multiplier distributes over xor -/

/-- Each round adds the multiplicand for the multiplier's low bit, so two multiplications by the same multiplicand add up. -/
theorem gfMulLoop_xor_right (k : Nat) (p q a b c : Nibble) :
    gfMulLoop k (p ^^^ q) a (b ^^^ c) = gfMulLoop k p a b ^^^ gfMulLoop k q a c := by
  induction k generalizing p q a b c with
  | zero => rfl
  | succ k ih =>
    have hacc : (if (b ^^^ c).getLsbD 0 then p ^^^ q ^^^ a else p ^^^ q) =
        (if b.getLsbD 0 then p ^^^ a else p) ^^^ (if c.getLsbD 0 then q ^^^ a else q) := by
      rw [BitVec.getLsbD_xor]
      match b.getLsbD 0, c.getLsbD 0 with
      | false, false => rfl
      | false, true => exact BitVec.xor_assoc p q a
      | true, false => exact (by ac_rfl : p ^^^ q ^^^ a = p ^^^ a ^^^ q)
      | true, true => exact (xor_xor_xor_cancel_right p q a).symm
    rw [gfMulLoop, hacc, BitVec.ushiftRight_xor_distrib, ih]
    rfl

/-- R59: multiplication distributes over addition, which is xor. -/
theorem gfMul_xor_right (a b c : Nibble) : gfMul a (b ^^^ c) = gfMul a b ^^^ gfMul a c :=
  gfMulLoop_xor_right 4 0 0 a b c

/-! ### The round primitives on the nibbles of a block -/

/-- R78: SubNibbles substitutes each nibble in its place. -/
theorem subN_append (S : SBox) (n0 n1 n2 n3 : Nibble) : subN S (n0 ++ n1 ++ n2 ++ n3) = S n0 ++ S n1 ++ S n2 ++ S n3 := by
  rw [subN, toM_append]
  rfl

/-- R79: InvSubNibbles substitutes each nibble back in its place. -/
theorem invSubN_append (S : SBox) (n0 n1 n2 n3 : Nibble) :
    invSubN S (n0 ++ n1 ++ n2 ++ n3) = S.symm n0 ++ S.symm n1 ++ S.symm n2 ++ S.symm n3 := by
  rw [invSubN, toM_append]
  rfl

/-- R80: ShiftRows swaps the nibbles of row 1, nibbles 1 and 3. -/
theorem sr_eq_append_nibbles (w : Block) : sr w = nib0 w ++ nib3 w ++ nib2 w ++ nib1 w := rfl

/-- R80 on a block given by its nibbles. -/
theorem sr_append (n0 n1 n2 n3 : Nibble) : sr (n0 ++ n1 ++ n2 ++ n3) = n0 ++ n3 ++ n2 ++ n1 := by
  rw [sr_eq_append_nibbles, nib0_append, nib1_append, nib2_append, nib3_append]

/-- R81: MixColumns multiplies the columns `n0 : n1` and `n2 : n3` by [[1,4],[4,1]]. -/
theorem mc_append (n0 n1 n2 n3 : Nibble) :
    mc (n0 ++ n1 ++ n2 ++ n3) = (n0 ^^^ gfMul 4 n1) ++ (gfMul 4 n0 ^^^ n1) ++ (n2 ^^^ gfMul 4 n3) ++ (gfMul 4 n2 ^^^ n3) := by
  rw [mc, toM_append]
  simp only [mixColumns, mulColumns, mixMatrix, fromM, gfMul_one_left]

/-- R82: InvMixColumns multiplies the columns by [[9,2],[2,9]]. -/
theorem imc_append (n0 n1 n2 n3 : Nibble) :
    imc (n0 ++ n1 ++ n2 ++ n3) =
      (gfMul 9 n0 ^^^ gfMul 2 n1) ++ (gfMul 2 n0 ^^^ gfMul 9 n1) ++ (gfMul 9 n2 ^^^ gfMul 2 n3) ++
        (gfMul 2 n2 ^^^ gfMul 9 n3) := by
  rw [imc, toM_append]
  rfl

/-- Two columns, each the key-schedule word of its nibbles, are a block. -/
theorem kword_append_kword (a b c d : Nibble) : kword a b ++ kword c d = a ++ b ++ c ++ d :=
  (BitVec.append_assoc (x₁ := a ++ b) (x₂ := c) (x₃ := d)).symm

/-- R81: a column moves to its product with MIX, and the other column stays 0. -/
theorem mc_column (a b : Nibble) :
    mc (kword a b ++ 0#8) = kword (a ^^^ gfMul 4 b) (gfMul 4 a ^^^ b) ++ 0#8 ∧
      mc (0#8 ++ kword a b) = 0#8 ++ kword (a ^^^ gfMul 4 b) (gfMul 4 a ^^^ b) := by
  have hsplit : 0#8 = kword 0#4 0#4 := rfl
  have hmul : gfMul 4 0#4 = 0#4 := gfMul_zero_right 4
  simp only [hsplit, kword_append_kword, mc_append, hmul, BitVec.xor_self, and_self]

/-- R83: adding the round key entry by entry is xor of the two blocks. -/
theorem ark_eq_xor (w k : Block) : ark w k = w ^^^ k := by
  calc ark w k
    _ = (nib0 w ^^^ nib0 k) ++ (nib1 w ^^^ nib1 k) ++ (nib2 w ^^^ nib2 k) ++ (nib3 w ^^^ nib3 k) := rfl
    _ = w ^^^ k := by rw [← append_xor_append, ← block_eq_append_nibbles, ← block_eq_append_nibbles]

/-! ### Each primitive undone by its inverse -/

/-- R79: the inverse table undoes the substitution. -/
@[simp] theorem invSubN_subN (S : SBox) (w : Block) : invSubN S (subN S w) = w := by
  induction w using forall_block with
  | h a b c d => simp only [subN_append, invSubN_append, Equiv.symm_apply_apply]

/-- R80: ShiftRows is its own inverse. -/
@[simp] theorem sr_sr (w : Block) : sr (sr w) = w := by
  induction w using forall_block with
  | h a b c d => simp only [sr_append]

/-- The first row of INV_MIX * MIX = I, on a column `[a, b]`: 9 * 1 + 2 * 4 = 1 and 9 * 4 + 2 * 1 = 0. -/
theorem invMix_mix_top (a b : Nibble) : gfMul 9 (a ^^^ gfMul 4 b) ^^^ gfMul 2 (gfMul 4 a ^^^ b) = a := by
  have hdiag : ∀ x : Nibble, gfMul 9 x ^^^ gfMul 2 (gfMul 4 x) = x := by decide
  have hoff : ∀ x : Nibble, gfMul 9 (gfMul 4 x) = gfMul 2 x := by decide
  rw [gfMul_xor_right, gfMul_xor_right, hoff, xor_xor_xor_cancel_right, hdiag]

/-- The second row of INV_MIX * MIX = I: both matrices are symmetric under swapping rows and columns. -/
theorem invMix_mix_bottom (a b : Nibble) : gfMul 2 (a ^^^ gfMul 4 b) ^^^ gfMul 9 (gfMul 4 a ^^^ b) = b := by
  rw [BitVec.xor_comm (gfMul 2 _), BitVec.xor_comm (gfMul 4 a), BitVec.xor_comm a]
  exact invMix_mix_top b a

/-- R82: INV_MIX undoes MIX column by column. -/
@[simp] theorem imc_mc (w : Block) : imc (mc w) = w := by
  induction w using forall_block with
  | h a b c d => simp only [mc_append, imc_append, invMix_mix_top, invMix_mix_bottom]

/-! ### The pipelines -/

/-- R85 with its rounds written out. -/
theorem encrypt_eq (S : SBox) (p : Block) (w : Vector KWord 8) :
    encrypt S p w =
      sr (subN S (mc (sr (subN S (mc (sr (subN S (p ^^^ roundKey w 0))) ^^^ roundKey w 1))) ^^^ roundKey w 2)) ^^^
        roundKey w 3 := by
  simp only [encrypt, List.foldl, ark_eq_xor]

/-- R86 with its rounds written out. -/
theorem decrypt_eq (S : SBox) (c : Block) (w : Vector KWord 8) :
    decrypt S c w =
      invSubN S (sr (imc (invSubN S (sr (imc (invSubN S (sr (c ^^^ roundKey w 3)) ^^^ roundKey w 2))) ^^^ roundKey w 1))) ^^^
        roundKey w 0 := by
  simp only [decrypt, List.foldl, ark_eq_xor]

/-- R87: decryption undoes encryption stage by stage from the last one, whatever W holds. -/
theorem decrypt_encrypt (S : SBox) (p : Block) (w : Vector KWord 8) : decrypt S (encrypt S p w) w = p := by
  simp only [decrypt_eq, encrypt_eq, xor_xor_cancel_right, sr_sr, invSubN_subN, imc_mc]

/-- R73: round key 0 of a schedule is the key. -/
theorem roundKey_keyExpand_zero (S : SBox) (k : Block) : roundKey (keyExpand S k) 0 = k := by
  calc roundKey (keyExpand S k) 0
    _ = k.extractLsb' (0 + 8) 8 ++ k.extractLsb' 0 8 := rfl
    _ = k.extractLsb' 0 16 := BitVec.extractLsb'_append_extractLsb'_eq_extractLsb' rfl
    _ = k := BitVec.extractLsb'_eq_self

/-! ### The single-block commands (R109: each ends with the completion update) -/

/-- R88. -/
theorem exec_subnib (s : State) : exec .subnib s = .next { s with dout := subN sbox s.din, status := ended 0 } := rfl

/-- R89. -/
theorem exec_invsubnib (s : State) : exec .invsubnib s = .next { s with dout := invSubN sbox s.din, status := ended 0 } := rfl

/-- R90. -/
theorem exec_shiftrows (s : State) : exec .shiftrows s = .next { s with dout := sr s.din, status := ended 0 } := rfl

/-- R91. -/
theorem exec_mixcol (s : State) : exec .mixcol s = .next { s with dout := mc s.din, status := ended 0 } := rfl

/-- R92. -/
theorem exec_invmixcol (s : State) : exec .invmixcol s = .next { s with dout := imc s.din, status := ended 0 } := rfl

/-- R93, with the xor of R83. -/
theorem exec_addrk (r : BitVec 2) (s : State) :
    exec (.addrk r) s = .next { s with dout := s.din ^^^ roundKey s.w r.toFin, status := ended 0 } := by
  rw [← ark_eq_xor]
  rfl

/-- R94: the expansion comes first, so the pipeline runs under the new W. -/
theorem exec_enc (s : State) : exec .enc s = .next { s with
    w := keyExpand sbox s.key, dout := encrypt sbox s.din (keyExpand sbox s.key), status := ended 0 } := rfl

/-- R95: as for ENC, with the inverse pipeline. -/
theorem exec_dec (s : State) : exec .dec s = .next { s with
    w := keyExpand sbox s.key, dout := decrypt sbox s.din (keyExpand sbox s.key), status := ended 0 } := rfl

/-! ### The examples under the candidate tables -/

/-- The key of R94's examples under SBOX_S. -/
theorem keyExpand_candidateS {S : SBox} (hS : ∀ x, S x = candidateS x) :
    keyExpand S 0xA73B = #v[0xA7, 0x3B, 0x8C, 0xB7, 0xFF, 0x48, 0xD2, 0x9A] := by
  have htable : (S : Nibble → Nibble) = candidateS := funext hS
  simp only [keyExpand, keyWord, subWord, htable]
  rfl

/-- SubNibbles of an S-box given as a table. -/
theorem subN_of_table {S : SBox} {f : Nibble → Nibble} (hS : ∀ x, S x = f x) (w : Block) :
    subN S w = fromM ((toM w).map f) := by
  rw [subN, subNibbles, show (S : Nibble → Nibble) = f from funext hS]

/-- R88: the example under SBOX_P. -/
theorem subN_candidateP {S : SBox} (hS : ∀ x, S x = candidateP x) : subN S 0x0123 = 0xE4D1 := by
  rw [subN_of_table hS]
  rfl

/-- R94: the example under SBOX_P, round by round. -/
theorem encrypt_candidateP {S : SBox} (hS : ∀ x, S x = candidateP x) : encrypt S 0x6F6B (keyExpand S 0xA73B) = 0xB4DF := by
  have hround1 : mc (sr (subN S 0xC850)) ^^^ 0x764D = 0xFF77 := by rw [subN_of_table hS]; rfl
  have hround2 : mc (sr (subN S 0xFF77)) ^^^ 0xC489 = 0xD3F8 := by rw [subN_of_table hS]; rfl
  have hround3 : sr (subN S 0xD3F8) ^^^ 0x27AE = 0xB4DF := by rw [subN_of_table hS]; rfl
  rw [keyExpand_candidateP hS, encrypt_eq, ← hround3, ← hround2, ← hround1]
  rfl

/-- R94: the example under SBOX_S, round by round. -/
theorem encrypt_candidateS {S : SBox} (hS : ∀ x, S x = candidateS x) : encrypt S 0x6F6B (keyExpand S 0xA73B) = 0x683C := by
  have hround1 : mc (sr (subN S 0xC850)) ^^^ 0x8CB7 = 0x6015 := by rw [subN_of_table hS]; rfl
  have hround2 : mc (sr (subN S 0x6015)) ^^^ 0xFF48 = 0x3822 := by rw [subN_of_table hS]; rfl
  have hround3 : sr (subN S 0x3822) ^^^ 0xD29A = 0x683C := by rw [subN_of_table hS]; rfl
  rw [keyExpand_candidateS hS, encrypt_eq, ← hround3, ← hround2, ← hround1]
  rfl

end Sys2Proof.Machine

namespace Sys2Proof.Proofs

open Sys2Proof.Machine

/-- Settles O20: the model's fold over rounds 1 and 2 is `encrypt_eq`, and a round key shows its two words of W by definition. -/
theorem encryptIsTheThreeRoundPipeline : Obligations.EncryptIsTheThreeRoundPipeline := encrypt_eq

/-- Settles O21: the model's fold over rounds 2 and 1 is `decrypt_eq`. -/
theorem decryptIsTheThreeRoundPipeline : Obligations.DecryptIsTheThreeRoundPipeline := decrypt_eq

/-- Settles O13: the word has SUBNIB's opcode and no operand, and SubNibbles acts on each nibble in its place. -/
theorem subnibSubstitutesEachNibble : Obligations.SubnibSubstitutesEachNibble := by
  refine ⟨by decide, fun x hx => decode_error_of_format_N rfl hx, fun s n0 n1 n2 n3 hdin => ?exec,
    fun S => subN_append S 0 0 0 0, fun S hS => subN_candidateP hS⟩
  case exec => rw [exec_subnib, hdin, subN_append]

/-- Settles O14: as for SUBNIB with the inverse table; the undoing and the example both rest on `invSubN_subN`. -/
theorem invsubnibSubstitutesBack : Obligations.InvsubnibSubstitutesBack := by
  refine ⟨by decide, fun x hx => decode_error_of_format_N rfl hx, fun s n0 n1 n2 n3 hdin => ?exec, fun s t ht => ?undo,
    fun S hS => ?vector⟩
  case exec => rw [exec_invsubnib, hdin, invSubN_append]
  case undo =>
    cases (exec_subnib s).symm.trans ht
    rw [exec_invsubnib, invSubN_subN]
  case vector => rw [← subN_candidateP hS, invSubN_subN]

/-- Settles O15: a word whose nibbles 1 and 3 agree is again the concatenation of its nibbles after their swap. -/
theorem shiftrowsSwapsNibblesOneAndThree : Obligations.ShiftrowsSwapsNibblesOneAndThree := by
  refine ⟨by decide, fun x hx => decode_error_of_format_N rfl hx, exec_shiftrows, fun w hw => ?fixed, by decide⟩
  case fixed =>
    have hnib : nib1 w = nib3 w := hw
    calc sr w
      _ = nib0 w ++ nib3 w ++ nib2 w ++ nib1 w := sr_eq_append_nibbles w
      _ = nib0 w ++ nib1 w ++ nib2 w ++ nib3 w := by rw [hnib]
      _ = w := (block_eq_append_nibbles w).symm

/-- Settles O16: `mc_append` gives the word form, and `mc_column` the column clause with the same product for both columns. -/
theorem mixcolMultipliesTheColumns : Obligations.MixcolMultipliesTheColumns := by
  refine ⟨by decide, fun x hx => decode_error_of_format_N rfl hx, fun s n0 n1 n2 n3 hdin => ?exec,
    by decide, by decide, by decide, by decide, by decide, fun c => ?column⟩
  case exec => rw [exec_mixcol, hdin, mc_append]
  case column =>
    rw [kword_eq_append_nibbles c]
    exact ⟨_, mc_column (wordNib0 c) (wordNib1 c)⟩

/-- Settles O17: `imc_append` gives the word form, and the corners are closed words. -/
theorem invmixcolMultipliesTheColumnsBack : Obligations.InvmixcolMultipliesTheColumnsBack := by
  refine ⟨by decide, fun x hx => decode_error_of_format_N rfl hx, fun s n0 n1 n2 n3 hdin => ?exec,
    by decide, by decide, by decide⟩
  case exec => rw [exec_invmixcol, hdin, imc_append]

/-- Settles O18: each index selects its two words of W; after reset the key added is 0, and after KEYEXP round key 0 is KEY. -/
theorem addrkXorsTheCurrentRoundKey : Obligations.AddrkXorsTheCurrentRoundKey := by
  refine ⟨decode_addrk, fun x r hx => decode_addrk_reserved hx r,
    fun s => ⟨exec_addrk 0 s, exec_addrk 1 s, exec_addrk 2 s, exec_addrk 3 s⟩, fun r s hw => ?afterReset,
    fun s t hkey hdin ht => ?afterKeyexp⟩
  case afterReset =>
    have hdout : s.din ^^^ roundKey s.w r.toFin = s.din := by rw [hw, roundKey_reset]; exact BitVec.xor_zero
    rw [exec_addrk, hdout]
  case afterKeyexp =>
    cases (exec_keyexp s).symm.trans ht
    have hrk : roundKey (keyExpand sbox s.key) 0 = 0xA73B := by rw [roundKey_keyExpand_zero, hkey]
    have hdout : s.din ^^^ roundKey (keyExpand sbox s.key) 0 = 0xC850 := by rw [hrk, hdin]; rfl
    exact hdout ▸ exec_addrk 0 _

/-- Settles O22: the expansion is the state's own update, and the two vectors go through the rounds one by one. -/
theorem encEncryptsDin : Obligations.EncEncryptsDin :=
  ⟨by decide, fun _ hx => decode_error_of_format_N rfl hx, exec_enc, fun _ hS => encrypt_candidateP hS,
    fun _ hS => encrypt_candidateS hS⟩

/-- Settles O23: ENC leaves KEY, so DEC expands the same schedule, and under it decryption undoes encryption; so does the
vector. -/
theorem decDecryptsDin : Obligations.DecDecryptsDin := by
  refine ⟨by decide, fun x hx => decode_error_of_format_N rfl hx, exec_dec, fun s t ht => ?undo, fun S hS => ?vector⟩
  case undo =>
    cases (exec_enc s).symm.trans ht
    rw [exec_dec, decrypt_encrypt]
  case vector => rw [← encrypt_candidateP hS, decrypt_encrypt]

end Sys2Proof.Proofs
end

section
/-! Family 45_chaining_modes.md: the words of the message commands (R53, R54), their count check (R97), what ECB and CBC
decryption and ECB encryption leave (R98 to R102, R105), and the statements about them. -/

namespace Sys2Proof

/-! ### The words of the commands that carry a count -/

/-- R51, R53: a row of format M reads its count from bits 7:0, and its match and mask fix only the byte above. -/
theorem decode_of_count_row {m : BitVec 8} {mk : BitVec 8 → Instr}
    (hr : ⟨m ++ 0#8, 0xFF00, fun w => mk (operandN w)⟩ ∈ opcodeMap) (n : BitVec 8) : decode (m ++ n) = .ok (mk n) := by
  have hmask : (m ++ n) &&& (0xFF#8 ++ 0#8) = m ++ 0#8 := by
    rw [BitVec.and_append, BitVec.and_zero, show 0xFF#8 = BitVec.allOnes 8 from rfl, BitVec.and_allOnes]
  have hcount : operandN (m ++ n) = n := BitVec.extractLsb'_append_eq_right
  exact (decode_of_spells hr (beq_iff_eq.mpr hmask)).trans (congrArg (fun k => Except.ok (mk k)) hcount)

/-- R54: a command of format M is illegal when any of bits 11:8 is 1. -/
theorem decode_error_of_format_M {op : BitVec 4} (hop : formatOf op.toNat = some .M) {x : BitVec 4} (hx : x ≠ 0)
    (n : BitVec 8) : ∃ e, decode (op ++ x ++ n) = .error e := by
  have hopcode : (op ++ x ++ n).extractLsb' 12 4 = op := by
    rw [BitVec.extractLsb'_append_eq_of_le (by omega)]
    exact BitVec.extractLsb'_append_eq_left
  have hbits : (op ++ x ++ n).extractLsb' 8 4 = x := by
    rw [BitVec.extractLsb'_append_eq_of_le (by omega)]
    exact BitVec.extractLsb'_append_eq_right
  exact decode_error_of_reserved (f := .M) (by rwa [hopcode]) fun hclear => hx (hbits.symm.trans hclear)

/-- R101: `1011 0000 nnnnnnnn` decodes to ECB_ENC n. -/
theorem decode_ecbEnc : ∀ n : BitVec 8, decode (0xB0#8 ++ n) = .ok (.ecbEnc n) :=
  decode_of_count_row (List.mem_of_getElem? (i := 11) rfl)

/-- R102: `1100 0000 nnnnnnnn` decodes to ECB_DEC n. -/
theorem decode_ecbDec : ∀ n : BitVec 8, decode (0xC0#8 ++ n) = .ok (.ecbDec n) :=
  decode_of_count_row (List.mem_of_getElem? (i := 12) rfl)

/-- R105: `1110 0000 nnnnnnnn` decodes to CBC_DEC n. -/
theorem decode_cbcDec : ∀ n : BitVec 8, decode (0xE0#8 ++ n) = .ok (.cbcDec n) :=
  decode_of_count_row (List.mem_of_getElem? (i := 14) rfl)

end Sys2Proof

namespace Sys2Proof.Machine

/-! ### The count check (R97): ALIGN, and STATUS alone written -/

theorem exec_ecbEnc_zero (s : State) : exec (.ecbEnc 0) s = .next { s with status := ended 2 } := rfl

theorem exec_ecbDec_zero (s : State) : exec (.ecbDec 0) s = .next { s with status := ended 2 } := rfl

theorem exec_cbcEnc_zero (g : Bool) (s : State) : exec (.cbcEnc g 0) s = .next { s with status := ended 2 } := rfl

theorem exec_cbcDec_of_lt_two {n : BitVec 8} (hn : n < 2) (s : State) :
    exec (.cbcDec n) s = .next { s with status := ended 2 } :=
  if_pos hn

/-! ### What a message command leaves once its count check passes -/

/-- R98, R99: the command that led from `s` to `t` expanded the key, completed without an error, and wrote `word j` to OUT[j]
for `j < count`; no other buffer word and no other field of the state changed. -/
structure State.WritesMessage (s t : State) (count : Nat) (word : Nat → Block) : Prop where
  state : t = { s with w := keyExpand sbox s.key, mem := t.mem, status := ended 0 }
  out : ∀ j, j < count → t.outWord j = word j
  frame : ∀ a, ¬ (0x200 ≤ a ∧ a < 0x200 + count) → t.bufferWord a = s.bufferWord a

/-- R101, R102: an ECB run from block 0 writes `f` of each input word. -/
theorem writesMessage_ecbLoop (f : Block → Block) (n : BitVec 8) (s : State) :
    s.WritesMessage (ecbLoop f n.toNat 0 s.expandKey).finish n.toNat (fun j => f (s.inWord j)) := by
  obtain ⟨hstate, hout, hframe, -⟩ := ecbLoop_spec f n.toNat 0 s.expandKey (by omega)
  exact {
    state := congrArg State.finish hstate
    out := fun j hj => hout j (by omega) (by omega)
    frame := fun a ha => hframe a (by omega) }

/-- R105: a CBC decryption run from block 0 with the word of IN[0] as first chain value writes `f` of each ciphertext word, xor
the input word before it. -/
theorem writesMessage_cbcDecLoop (f : Block → Block) (n : BitVec 8) (s : State) :
    s.WritesMessage (cbcDecLoop f (n.toNat - 1) 0 (s.inWord 0) s.expandKey).finish (n.toNat - 1)
      (fun j => f (s.inWord (j + 1)) ^^^ s.inWord j) := by
  obtain ⟨hstate, hout, hframe, -⟩ := cbcDecLoop_spec f (n.toNat - 1) 0 (s.inWord 0) s.expandKey (by omega)
  refine { state := congrArg State.finish hstate, out := fun j hj => ?out, frame := fun a ha => hframe a (by omega) }
  case out =>
    have hj := hout j hj
    rw [Nat.zero_add] at hj
    cases j with
    | zero => exact hj
    | succ j => exact hj

/-- R101. -/
theorem exec_ecbEnc {n : BitVec 8} (hn : n ≠ 0) (s : State) : ∃ t, exec (.ecbEnc n) s = .next t ∧
    s.WritesMessage t n.toNat (fun j => encrypt sbox (s.inWord j) (keyExpand sbox s.key)) :=
  ⟨_, if_neg (BitVec.toNat_ne.mp hn), writesMessage_ecbLoop _ n s⟩

/-- R102. -/
theorem exec_ecbDec {n : BitVec 8} (hn : n ≠ 0) (s : State) : ∃ t, exec (.ecbDec n) s = .next t ∧
    s.WritesMessage t n.toNat (fun j => decrypt sbox (s.inWord j) (keyExpand sbox s.key)) :=
  ⟨_, if_neg (BitVec.toNat_ne.mp hn), writesMessage_ecbLoop _ n s⟩

/-- R105. -/
theorem exec_cbcDec {n : BitVec 8} (hn : 2 ≤ n.toNat) (s : State) : ∃ t, exec (.cbcDec n) s = .next t ∧
    s.WritesMessage t (n.toNat - 1) (fun j => decrypt sbox (s.inWord (j + 1)) (keyExpand sbox s.key) ^^^ s.inWord j) :=
  ⟨_, if_neg (by omega), writesMessage_cbcDecLoop _ n s⟩

/-! ### The examples under SBOX_P -/

/-- A vector for the key of the examples, given forward: the plaintext through each of the three rounds to the ciphertext. -/
theorem decrypt_candidateP_of_rounds {S : SBox} (hS : ∀ x, S x = candidateP x) {p u v c : Block}
    (hround1 : mc (sr (fromM ((toM (p ^^^ 0xA73B)).map candidateP))) ^^^ 0x764D = u)
    (hround2 : mc (sr (fromM ((toM u).map candidateP))) ^^^ 0xC489 = v)
    (hround3 : sr (fromM ((toM v).map candidateP)) ^^^ 0x27AE = c) :
    decrypt S c (keyExpand S 0xA73B) = p := by
  have hencrypt : encrypt S p (keyExpand S 0xA73B) = c := by
    rw [← subN_of_table hS] at hround1 hround2 hround3
    rw [keyExpand_candidateP hS, encrypt_eq, ← hround3, ← hround2, ← hround1]
    rfl
  rw [← hencrypt, decrypt_encrypt]

/-- R102: the blocks of the ECB example. -/
theorem decrypt_candidateP_ecb {S : SBox} (hS : ∀ x, S x = candidateP x) :
    decrypt S 0xB4DF (keyExpand S 0xA73B) = 0x6F6B ∧ decrypt S 0x748A (keyExpand S 0xA73B) = 0x2D3B :=
  ⟨decrypt_candidateP_of_rounds hS rfl rfl rfl, decrypt_candidateP_of_rounds hS rfl rfl rfl⟩

/-- R105: the blocks of the CBC example: 0x6F6B twice, each still under its chain value (0x1234, then 0x0148). -/
theorem decrypt_candidateP_cbc {S : SBox} (hS : ∀ x, S x = candidateP x) :
    decrypt S 0x0148 (keyExpand S 0xA73B) = 0x7D5F ∧ decrypt S 0x0505 (keyExpand S 0xA73B) = 0x6E23 :=
  ⟨decrypt_candidateP_of_rounds hS rfl rfl rfl, decrypt_candidateP_of_rounds hS rfl rfl rfl⟩

end Sys2Proof.Machine

namespace Sys2Proof.Proofs

open Sys2Proof.Machine

/-- Settles O26: each count check fails before anything is written. -/
theorem tooFewBlocksEndsWithAlign : Obligations.TooFewBlocksEndsWithAlign :=
  ⟨fun s => ⟨exec_ecbEnc_zero s, exec_ecbDec_zero s, exec_cbcEnc_zero false s, exec_cbcEnc_zero true s⟩,
    fun s _ hn => exec_cbcDec_of_lt_two hn s⟩

/-- Settles O27: each OUT word is a function of its own IN word, so equal input blocks give equal output blocks. -/
theorem ecbEncEncryptsEachBlock : Obligations.EcbEncEncryptsEachBlock := by
  refine ⟨decode_ecbEnc, fun x n hx => decode_error_of_format_M rfl hx n, exec_ecbEnc_zero, fun s n hn => ?run,
    fun S hS => encrypt_candidateP hS⟩
  case run =>
    obtain ⟨t, ht, hstate, hout, hframe⟩ := exec_ecbEnc hn s
    refine ⟨t, ht, hstate, hout, fun j k hj hk heq => ?equal, hframe⟩
    case equal => rw [hout j hj, hout k hk, heq]

/-- Settles O28: the two runs expand the same key, so each block read back goes through decryption after encryption under one
schedule. -/
theorem ecbDecDecryptsEachBlock : Obligations.EcbDecDecryptsEachBlock := by
  refine ⟨decode_ecbDec, fun x n hx => decode_error_of_format_M rfl hx n, exec_ecbDec_zero, fun s n hn => ?run,
    fun s t u n hn ht hkey hin => ?restores, fun S hS => decrypt_candidateP_ecb hS⟩
  case run =>
    obtain ⟨t, ht, hstate, hout, hframe⟩ := exec_ecbDec hn s
    exact ⟨t, ht, hstate, hout, hframe⟩
  case restores =>
    obtain ⟨t', ht', henc⟩ := exec_ecbEnc hn s
    cases ht'.symm.trans ht
    obtain ⟨v, hv, hdec⟩ := exec_ecbDec hn u
    refine ⟨v, hv, fun j hj => ?_⟩
    rw [hdec.out j hj, hin j hj, henc.out j hj, hkey, decrypt_encrypt]

/-- Settles O30: the chain values are the words the run reads, so each OUT word depends on two IN words only. -/
theorem cbcDecChainsTheInputCiphertext : Obligations.CbcDecChainsTheInputCiphertext := by
  refine ⟨decode_cbcDec, fun x n hx => decode_error_of_format_M rfl hx n,
    fun s => ⟨exec_cbcDec_of_lt_two (by decide) s, exec_cbcDec_of_lt_two (by decide) s⟩, fun s n hn => ?run,
    fun S hS => ?vector⟩
  case run =>
    obtain ⟨t, ht, hstate, hout, hframe⟩ := exec_cbcDec hn s
    exact ⟨t, ht, hstate, hout, hframe⟩
  case vector =>
    obtain ⟨hblock1, hblock2⟩ := decrypt_candidateP_cbc hS
    rw [hblock1, hblock2]
    exact ⟨rfl, rfl⟩

end Sys2Proof.Proofs
end

section
/-! Family 46_control.md: the issue of a command by a host write to CMD (R107), NOP (R113), and the statements about them. -/

namespace Sys2Proof.Machine

/-- R107: issue writes CMD and STATUS. -/
theorem State.issue_eq (s : State) (v : Block) : s.issue v = { s with cmd := v, status := inFlight } := rfl

/-- R109, R113: NOP writes STATUS. -/
theorem exec_nop (s : State) : exec .nop s = .next { s with status := ended 0 } := rfl

end Sys2Proof.Machine

namespace Sys2Proof.Proofs

open Sys2Proof.Machine

/-- Settles O11: NOP has no operand, so any other word of its opcode sets a reserved bit; the completion update alone gives
the STATUS word. -/
theorem nopOnlyCompletes : Obligations.NopOnlyCompletes :=
  ⟨by decide, fun _ hx => decode_error_of_format_N rfl hx, exec_nop, by decide⟩

/-- Settles O41: address 0x000 is CMD, where an idle write issues whatever the word is; R139 drops the write while BUSY = 1. -/
theorem cmdWriteIssues : Obligations.CmdWriteIssues := by
  refine ⟨fun s v hidle => ?idle, fun s v hbusy => State.busWrite_of_busy hbusy 0x000 v⟩
  case idle => rw [State.busWrite_of_cmd hidle rfl, State.issue_eq]

end Sys2Proof.Proofs
end

section
/-! Family 47_host_text_interface.md: the message alignment check comes first of a call's text checks (R117), and a text error
ends the call before any host event; the statement about the alignment error (R116). -/

namespace Sys2Proof.Machine

/-- R116 for the three functions whose text is the message alone. -/
theorem checkAligned_of_unaligned {t : Text} (ht : t.length = 0 ∨ t.length % 4 ≠ 0) :
    checkAligned t = .error .alignmentError := if_pos ht

/-- R116 for `decrypt_cbc`, whose text leads with the IV. -/
theorem checkAlignedCbc_of_unaligned {t : Text} (ht : t.length < 8 ∨ t.length % 4 ≠ 0) :
    checkAlignedCbc t = .error .alignmentError := if_pos ht

/-- The message alignment check of a call; the single-block functions have none (R117). `check_of_alignment_error` ties it to
the model's own check. -/
def TextCall.alignment : TextCall → Except HostError Unit
  | .encryptBlock _ _ | .decryptBlock _ _ => .ok ()
  | .encryptEcb t _ | .decryptEcb t _ | .encryptCbc t _ _ => checkAligned t
  | .decryptCbc t _ => checkAlignedCbc t

/-- R117: message alignment is checked before the key, the IV and the blocks, so its error is the call's. -/
theorem TextCall.check_of_alignment_error {c : TextCall} {e : HostError} (h : c.alignment = .error e) :
    c.check = .error e := by
  cases c with
  | encryptBlock | decryptBlock => cases h
  | encryptEcb | decryptEcb | decryptCbc =>
    rw [TextCall.alignment] at h
    rw [TextCall.check, h]
    rfl
  | encryptCbc _ _ iv =>
    rw [TextCall.alignment] at h
    cases iv <;> rw [TextCall.check, h] <;> rfl

/-- A call whose texts fail the check is that error, with no host event. -/
theorem TextCall.events_of_check_error {c : TextCall} {e : HostError} (h : c.check = .error e) : c.events = .error e := by
  rw [TextCall.events, h]
  rfl

theorem TextCall.events_of_alignment_error {c : TextCall} {e : HostError} (h : c.alignment = .error e) :
    c.events = .error e :=
  events_of_check_error (check_of_alignment_error h)

end Sys2Proof.Machine

namespace Sys2Proof.Proofs

open Sys2Proof.Machine

/-- Settles O56: the alignment check looks at the message text alone and comes first, so no key or IV text matters. -/
theorem unalignedTextIsAnAlignmentError : Obligations.UnalignedTextIsAnAlignmentError := by
  refine ⟨fun t k iv ht => ?message, fun t k ht => ?decryptCbc⟩
  case message =>
    have halign : checkAligned t = .error .alignmentError := checkAligned_of_unaligned ht
    exact ⟨TextCall.events_of_alignment_error halign, TextCall.events_of_alignment_error halign,
      TextCall.events_of_alignment_error halign⟩
  case decryptCbc => exact TextCall.events_of_alignment_error (checkAlignedCbc_of_unaligned ht)

end Sys2Proof.Proofs
end

section
/-! Family 70_reset_and_hazards.md: the state of rule R135, reached at power-on and by every reset event; a reset while BUSY = 1
(R136), and host writes while BUSY = 1 (R139). -/

namespace Sys2Proof.Machine

/-- "The state of rule R135" (the words of R136): every register at its reset value. The buffers are unspecified then (R26, R27)
and are left out. `atReset_reset` and `access_reset_atReset` tie it to the two ways the model gets there. -/
structure State.AtReset (r : State) : Prop where
  cmd : r.cmd = State.reset.cmd
  status : r.status = State.reset.status
  key : r.key = State.reset.key
  iv : r.iv = State.reset.iv
  din : r.din = State.reset.din
  dout : r.dout = State.reset.dout
  w : r.w = State.reset.w

/-- R135 at power-on. -/
theorem State.atReset_reset : State.reset.AtReset := ⟨rfl, rfl, rfl, rfl, rfl, rfl, rfl⟩

/-- A reset event is the reset input asserted, with or without a command pending. -/
@[simp] theorem State.access_reset (s : State) : s.access .reset = s.afterReset := rfl

/-- R135, R136 for a reset event, from every state. -/
theorem State.access_reset_atReset (s : State) : (s.access .reset).AtReset := by
  rw [State.access_reset]
  exact ⟨s.afterReset_cmd, s.afterReset_status, s.afterReset_key, s.afterReset_iv, s.afterReset_din, s.afterReset_dout,
    s.afterReset_w⟩

/-- R135: W0..W7 are 0x00. -/
theorem reset_keyWord (i : Fin 8) : State.reset.w[i.val] = 0 := by
  revert i
  decide

end Sys2Proof.Machine

namespace Sys2Proof.Proofs

open Sys2Proof.Machine

/-- Settles O46: the BUSY test of a host write comes before its address is looked at. -/
theorem writesWhileBusyAreIgnored : Obligations.WritesWhileBusyAreIgnored := fun _ a v hbusy =>
  State.busWrite_of_busy hbusy a v

/-- Settles O50: power-on and a reset event both lead to the state of R135, whose registers are those of `State.reset`. -/
theorem resetSetsEveryRegister : Obligations.ResetSetsEveryRegister := by
  intro r hr
  have hreset : r.AtReset := by
    obtain rfl | ⟨s, rfl⟩ := hr
    · exact State.atReset_reset
    · exact s.access_reset_atReset
  obtain ⟨hcmd, hstatus, hkey, hiv, hdin, hdout, hw⟩ := hreset
  rw [hstatus, hw]
  exact ⟨hcmd, rfl, hkey, hiv, hdin, hdout, reset_keyWord, roundKey_reset, rfl, rfl, rfl⟩

/-- Settles O51: a reset event leads to the state of R135 from every state, so also with a command pending, and leaves the
index of the random source. -/
theorem resetAbandonsThePendingCommand : Obligations.ResetAbandonsThePendingCommand := by
  rintro s _ - rfl
  obtain ⟨hcmd, hstatus, hkey, hiv, hdin, hdout, hw⟩ := s.access_reset_atReset
  exact ⟨hstatus, hcmd, hkey, hiv, hdin, hdout, hw, s.afterReset_ivDraws⟩

end Sys2Proof.Proofs
end

section
/-! The encoder against the decoder (30_encoding.md R51 to R53): the word of a command is the match of its row with the operands
in the bits the row's mask ignores, every command's word decodes to it, and the rows of the map are disjoint. -/

namespace Sys2Proof

/-! ### The word of a row's command -/

/-- A mask and its complement keep every bit between them. -/
theorem and_or_and_not {n : Nat} (w m : BitVec n) : (w &&& m) ||| (w &&& ~~~m) = w := by
  rw [← BitVec.and_or_distrib_left]
  simp

/-- R51: OP, the reserved bits 0 and the low `k` bits of a word make the match with the bits that a mask from `k` up ignores. -/
theorem append_zero_append_low (op : BitVec 4) {r k : Nat} (hk : 4 + r + k = 16) (w : Block) :
    (op ++ 0#r ++ w.extractLsb' 0 k).cast hk = (op ++ 0#12) ||| (w &&& ~~~(BitVec.allOnes 16 <<< k)) := by
  apply BitVec.eq_of_getLsbD_eq
  intro i hi
  simp only [BitVec.getLsbD_cast, BitVec.getLsbD_append, BitVec.getLsbD_extractLsb', BitVec.getLsbD_or, BitVec.getLsbD_and,
    BitVec.getLsbD_not, BitVec.getLsbD_shiftLeft, BitVec.getLsbD_allOnes, BitVec.getLsbD_zero]
  obtain hlow | hmid | htop : i < k ∨ (k ≤ i ∧ i < 12) ∨ 12 ≤ i := by omega
  · grind
  · grind
  · grind

/-- R52: the two nibbles of GFMUL are the low byte of its word. -/
theorem operandA_append_operandB (w : Block) : operandA w ++ operandB w = w.extractLsb' 0 8 :=
  BitVec.extractLsb'_append_extractLsb'_eq_extractLsb' rfl

/-- R52: the flag and the count of CBC_ENC are the low nine bits of its word. -/
theorem operandG_append_operandN (w : Block) : BitVec.ofBool (operandG w) ++ operandN w = w.extractLsb' 0 9 := by
  have hbit : ∀ b : BitVec 1, BitVec.ofBool (b == 1#1) = b := by decide
  rw [operandG, hbit]
  exact BitVec.extractLsb'_append_extractLsb'_eq_extractLsb' rfl

/-- R51, R53: the word of the command a row reads from `w` is the row's match with the bits of `w` that the row's mask ignores. -/
theorem encode_build : ∀ r ∈ opcodeMap, ∀ w : Block, encode (r.build w) = r.mtch ||| (w &&& ~~~r.mask) := by
  have hnone (op : BitVec 4) (w : Block) : op ++ 0#12 = (op ++ 0#12) ||| (w &&& ~~~0xFFFF#16) := by simp
  have hpair (w : Block) : encode (.gfmul (operandA w) (operandB w)) = 0x1000 ||| (w &&& ~~~0xFF00#16) := by
    calc encode (.gfmul (operandA w) (operandB w))
      _ = 0x1#4 ++ 0#4 ++ (operandA w ++ operandB w) := BitVec.append_assoc
      _ = 0x1#4 ++ 0#4 ++ w.extractLsb' 0 8 := by rw [operandA_append_operandB]
      _ = 0x1000 ||| (w &&& ~~~0xFF00#16) := append_zero_append_low 0x1#4 rfl w
  have hflagged (w : Block) : encode (.cbcEnc (operandG w) (operandN w)) = 0xD000 ||| (w &&& ~~~0xFE00#16) := by
    calc encode (.cbcEnc (operandG w) (operandN w))
      _ = 0xD#4 ++ 0#3 ++ (BitVec.ofBool (operandG w) ++ operandN w) := BitVec.append_assoc
      _ = 0xD#4 ++ 0#3 ++ w.extractLsb' 0 9 := by rw [operandG_append_operandN]
      _ = 0xD000 ||| (w &&& ~~~0xFE00#16) := append_zero_append_low 0xD#4 rfl w
  simp only [opcodeMap, List.forall_mem_cons, List.not_mem_nil, false_imp_iff, implies_true, and_true]
  exact ⟨hnone 0x0#4, hpair, hnone 0x2#4, hnone 0x3#4, hnone 0x4#4, hnone 0x5#4, hnone 0x6#4,
    append_zero_append_low 0x7#4 rfl, hnone 0x8#4, hnone 0x9#4, hnone 0xA#4, append_zero_append_low 0xB#4 rfl,
    append_zero_append_low 0xC#4 rfl, hflagged, append_zero_append_low 0xE#4 rfl⟩

/-- R53: a row that a word spells reads from it the command of that very word. -/
theorem encode_of_spells {r : OpcodeRow} (hr : r ∈ opcodeMap) {w : Block} (hw : r.spells w = true) :
    encode (r.build w) = w := by
  have hmatch : w &&& r.mask = r.mtch := beq_iff_eq.mp hw
  rw [encode_build r hr, ← hmatch, and_or_and_not]

/-- R108: a decoded command comes from a row that the word spells. -/
theorem exists_row_of_decode {w : Block} {i : Instr} (h : decode w = .ok i) :
    ∃ r ∈ opcodeMap, r.spells w = true ∧ i = r.build w := by
  have hnot : ¬ ∃ e, decode w = .error e := by simp [h]
  rw [decode_error_iff_no_row, not_not] at hnot
  obtain ⟨r, hr, hspells⟩ := hnot
  have hbuild := (decode_of_spells hr hspells).symm.trans h
  exact ⟨r, hr, hspells, (Except.ok.inj hbuild).symm⟩

/-! ### The words of CBC_ENC (R104) -/

section FormatMG

variable (op : BitVec 4) (x : BitVec 3) (b : BitVec 1) (n : BitVec 8)

theorem opcode_of_append_MG : (op ++ x ++ b ++ n).extractLsb' 12 4 = op := by
  rw [BitVec.extractLsb'_append_eq_of_le (by omega), BitVec.extractLsb'_append_eq_of_le (by omega)]
  exact BitVec.extractLsb'_append_eq_left

theorem reserved_of_append_MG : (op ++ x ++ b ++ n).extractLsb' 9 3 = x := by
  rw [BitVec.extractLsb'_append_eq_of_le (by omega), BitVec.extractLsb'_append_eq_of_le (by omega)]
  exact BitVec.extractLsb'_append_eq_right

theorem flag_of_append_MG : (op ++ x ++ b ++ n).extractLsb' 8 1 = b := by
  rw [BitVec.extractLsb'_append_eq_of_le (by omega)]
  exact BitVec.extractLsb'_append_eq_right

end FormatMG

/-- R104: `1101 000g nnnnnnnn` decodes to CBC_ENC n or CBC_ENC.G n. -/
theorem decode_cbcEnc (g : Bool) (n : BitVec 8) : decode (0xD#4 ++ 0#3 ++ BitVec.ofBool g ++ n) = .ok (.cbcEnc g n) := by
  have hrow : ⟨0xD000, 0xFE00, fun w => .cbcEnc (operandG w) (operandN w)⟩ ∈ opcodeMap := List.mem_of_getElem? (i := 13) rfl
  have hspells := (OpcodeRow.spells_iff hrow (0xD#4 ++ 0#3 ++ BitVec.ofBool g ++ n)).mpr
    ⟨opcode_of_append_MG .., .MG, rfl, reserved_of_append_MG ..⟩
  have hflag : operandG (0xD#4 ++ 0#3 ++ BitVec.ofBool g ++ n) = g := by
    rw [operandG, commandField, flag_of_append_MG]
    cases g <;> rfl
  have hcount : operandN (0xD#4 ++ 0#3 ++ BitVec.ofBool g ++ n) = n := BitVec.extractLsb'_append_eq_right
  rw [decode_of_spells hrow hspells]
  simp only [hflag, hcount]

/-- R54, R104: a set bit in 11:9 of a word with CBC_ENC's opcode is illegal. -/
theorem decode_cbcEnc_reserved {x : BitVec 3} (hx : x ≠ 0) (b : BitVec 1) (n : BitVec 8) :
    ∃ e, decode (0xD#4 ++ x ++ b ++ n) = .error e := by
  refine decode_error_of_reserved (f := .MG) (by rw [opcode_of_append_MG]; rfl) fun hclear => hx ?_
  exact (reserved_of_append_MG ..).symm.trans hclear

end Sys2Proof

namespace Sys2Proof.Proofs

open Sys2Proof.Machine

/-- Settles O1: a command without operands is one closed word; the others decode by the lemma of their format, whatever their
operands are. -/
theorem decodeOfEncodeIsTheCommand : Obligations.DecodeOfEncodeIsTheCommand := by
  intro i
  cases i with
  | nop | subnib | invsubnib | shiftrows | mixcol | invmixcol | keyexp | enc | dec => decide
  | gfmul a b => exact decode_gfmul a b
  | addrk r => exact decode_addrk r
  | ecbEnc n => exact decode_ecbEnc n
  | ecbDec n => exact decode_ecbDec n
  | cbcEnc g n => exact decode_cbcEnc g n
  | cbcDec n => exact decode_cbcDec n

/-- Settles O2: the word spells the row it was decoded by, so match and ignored bits together are the word. -/
theorem encodeOfDecodeIsTheWord : Obligations.EncodeOfDecodeIsTheWord := by
  intro w i h
  obtain ⟨r, hr, hspells, rfl⟩ := exists_row_of_decode h
  exact encode_of_spells hr hspells

/-- Settles O4: a word that spells two rows has the opcode of both, and no two rows share an opcode. -/
theorem opcodeRowsAreDisjoint : Obligations.OpcodeRowsAreDisjoint := by
  have hopcodes : opcodeMap.Pairwise fun r r' => r.mtch.extractLsb' 12 4 ≠ r'.mtch.extractLsb' 12 4 := by
    rw [← List.pairwise_map (f := fun r : OpcodeRow => r.mtch.extractLsb' 12 4) (R := (· ≠ ·))]
    decide
  refine hopcodes.imp_of_mem fun {r r'} hr hr' hne w ⟨hw, hw'⟩ => hne ?_
  obtain ⟨hop, -⟩ := (OpcodeRow.spells_iff hr w).mp hw
  obtain ⟨hop', -⟩ := (OpcodeRow.spells_iff hr' w).mp hw'
  exact hop.symm.trans hop'

/-- Settles O5: the legal words are those of their formats at these operands; the illegal ones match no row of the map. -/
theorem specWordsDecodeAsWritten : Obligations.SpecWordsDecodeAsWritten :=
  ⟨by decide, decode_gfmul 0xF 0xF, decode_gfmul 0x4 0xE, decode_addrk 3, by decide, by decide, by decide, decode_ecbEnc 255,
    decode_ecbDec 2, decode_cbcEnc false 2, decode_cbcEnc true 255, decode_cbcDec 3,
    by decide, by decide, by decide, by decide, by decide, by decide⟩

end Sys2Proof.Proofs
end

section
/-! The field and the block cipher (41_gf_arith.md R59, 43_key_schedule.md R73 and R76, 44_round_transform.md R79 to R87): `gf_mul`
as multiplication of polynomials modulo x^4 + x + 1, the first round key, and each transformation undone by its inverse on
either side. -/

namespace Sys2Proof.Machine

/-! ### Multiplication in GF(2^4) -/

/-- A property of nibbles that xor keeps holds of every nibble once it holds of the four powers of x. -/
theorem nibble_induction {P : Nibble → Prop} (hxor : ∀ b c, P b → P c → P (b ^^^ c)) (h1 : P 1) (h2 : P 2) (h4 : P 4)
    (h8 : P 8) (b : Nibble) : P b := by
  have h0 : P 0 := hxor 1 1 h1 h1
  have hspan : ∀ b : Nibble, b = (if b.getLsbD 0 then 1 else 0) ^^^ (if b.getLsbD 1 then 2 else 0) ^^^
      (if b.getLsbD 2 then 4 else 0) ^^^ (if b.getLsbD 3 then 8 else 0) := by decide
  have hbit (c : Bool) (x : Nibble) (hx : P x) : P (if c then x else 0) := by
    cases c with
    | false => exact h0
    | true => exact hx
  rw [hspan b]
  exact hxor _ _ (hxor _ _ (hxor _ _ (hbit _ 1 h1) (hbit _ 2 h2)) (hbit _ 4 h4)) (hbit _ 8 h8)

/-- R59. -/
theorem gfMul_comm : ∀ a b : Nibble, gfMul a b = gfMul b a := by decide

@[simp] theorem gfMul_one_right (a : Nibble) : gfMul a 1 = a := by rw [gfMul_comm, gfMul_one_left]

/-- R59: both sides are additive in the last factor, so it is enough to multiply by the powers of x. -/
theorem gfMul_assoc (a b c : Nibble) : gfMul a (gfMul b c) = gfMul (gfMul a b) c := by
  induction c using nibble_induction with
  | hxor c d hc hd => rw [gfMul_xor_right, gfMul_xor_right, gfMul_xor_right, hc, hd]
  | h1 => rw [gfMul_one_right, gfMul_one_right]
  | h2 => revert a b; decide
  | h4 => revert a b; decide
  | h8 => revert a b; decide

/-- R59: a nonzero nibble has an inverse. -/
theorem exists_gfMul_eq_one : ∀ a : Nibble, a ≠ 0 → ∃ b : Nibble, gfMul a b = 1 := by decide

/-- An inverse is the only one, by commutativity and associativity. -/
theorem gfMul_eq_one_unique {a b b' : Nibble} (hb : gfMul a b = 1) (hb' : gfMul a b' = 1) : b' = b := by
  calc b'
    _ = gfMul (gfMul b a) b' := by rw [gfMul_comm b, hb, gfMul_one_left]
    _ = gfMul b (gfMul a b') := (gfMul_assoc b a b').symm
    _ = b := by rw [hb', gfMul_one_right]

/-- Adding `u` on the xor of two conditions is adding it to one term on each. -/
theorem ite_xor_eq_ite_xor_ite {n : Nat} (b c : Bool) (p q u : BitVec n) :
    (if b ^^ c then p ^^^ q ^^^ u else p ^^^ q) = (if b then p ^^^ u else p) ^^^ (if c then q ^^^ u else q) := by
  match b, c with
  | false, false => rfl
  | false, true => exact BitVec.xor_assoc p q u
  | true, false => exact (by ac_rfl : p ^^^ q ^^^ u = p ^^^ u ^^^ q)
  | true, true => exact (xor_xor_xor_cancel_right p q u).symm

/-- The sum of `acc` and the products of `x` with the terms of `y` of the listed degrees; `polyMul_eq` ties it to `polyMul`. -/
def polyMulTerms (x y : BitVec 8) (degrees : List Nat) (acc : BitVec 8) : BitVec 8 :=
  degrees.foldl (fun acc i => if y.getLsbD i then acc ^^^ (x <<< i) else acc) acc

theorem polyMul_eq (x y : BitVec 8) : polyMul x y = polyMulTerms x y (List.range 8) 0 := rfl

theorem polyMulTerms_xor_right (x y z : BitVec 8) (degrees : List Nat) (p q : BitVec 8) :
    polyMulTerms x (y ^^^ z) degrees (p ^^^ q) = polyMulTerms x y degrees p ^^^ polyMulTerms x z degrees q := by
  induction degrees generalizing p q with
  | nil => rfl
  | cons i degrees ih =>
    rw [polyMulTerms, List.foldl_cons, BitVec.getLsbD_xor, ite_xor_eq_ite_xor_ite]
    exact ih _ _

/-- The product of polynomials distributes over addition, which is xor. -/
theorem polyMul_xor_right (x y z : BitVec 8) : polyMul x (y ^^^ z) = polyMul x y ^^^ polyMul x z := by
  rw [polyMul_eq, polyMul_eq, polyMul_eq]
  exact polyMulTerms_xor_right x y z (List.range 8) 0 0

/-- R58, R59: the product of the polynomials is a multiple of x^4 + x + 1 plus `gf_mul`; the multiples add up, so it is enough
to multiply by the powers of x. -/
theorem polyMul_eq_multiple_xor_gfMul (a b : Nibble) :
    ∃ q : Nibble, polyMul (a.setWidth 8) (b.setWidth 8) = polyMul 0x13 (q.setWidth 8) ^^^ (gfMul a b).setWidth 8 := by
  induction b using nibble_induction with
  | hxor b c hb hc =>
    obtain ⟨q, hq⟩ := hb
    obtain ⟨r, hr⟩ := hc
    refine ⟨q ^^^ r, ?_⟩
    rw [gfMul_xor_right, BitVec.setWidth_xor, BitVec.setWidth_xor, BitVec.setWidth_xor, polyMul_xor_right, polyMul_xor_right,
      hq, hr]
    ac_rfl
  | h1 => revert a; decide
  | h2 => revert a; decide
  | h4 => revert a; decide
  | h8 => revert a; decide

/-! ### The first round key -/

/-- R76: the zero key has a nonzero third word, and any other key shows in the first two. -/
theorem keyExpand_ne_reset (S : SBox) (k : Block) : keyExpand S k ≠ State.reset.w := by
  intro h
  have hkey : k = 0x0000 := by
    calc k
      _ = roundKey (keyExpand S k) 0 := (roundKey_keyExpand_zero S k).symm
      _ = 0x0000 := by rw [h, roundKey_reset]
  subst hkey
  have hword : (keyExpand S 0x0000)[2] = 0x00#8 := by rw [h]; rfl
  rw [keyExpand_zero_two] at hword
  exact xor_one_append_ne_zero (S 0) hword

/-! ### Each transformation undone on either side -/

/-- There are finitely many blocks, so a transformation that is undone by another also undoes it. -/
theorem rightInverse_of_leftInverse {f g : Block → Block} (h : Function.LeftInverse g f) : Function.RightInverse g f :=
  h.rightInverse_of_surjective (Finite.surjective_of_injective h.injective)

/-- R79. -/
@[simp] theorem subN_invSubN (S : SBox) (w : Block) : subN S (invSubN S w) = w :=
  rightInverse_of_leftInverse (invSubN_subN S) w

/-- R82. -/
@[simp] theorem mc_imc (w : Block) : mc (imc w) = w := rightInverse_of_leftInverse imc_mc w

/-- R83: adding one key twice changes nothing. -/
@[simp] theorem ark_ark (w k : Block) : ark (ark w k) k = w := by
  rw [ark_eq_xor, ark_eq_xor, xor_xor_cancel_right]

/-- R84: ShiftRows moves nibbles that SubNibbles has substituted. -/
theorem sr_subN (S : SBox) (w : Block) : sr (subN S w) = subN S (sr w) := by
  induction w using forall_block with
  | h a b c d => simp only [subN_append, sr_append]

/-- R84 for the inverse table, which is an S-box too. -/
theorem sr_invSubN (S : SBox) (w : Block) : sr (invSubN S w) = invSubN S (sr w) := sr_subN S.symm w

/-- R87. -/
theorem encrypt_decrypt (S : SBox) (c : Block) (w : Vector KWord 8) : encrypt S (decrypt S c w) w = c :=
  rightInverse_of_leftInverse (f := (encrypt S · w)) (g := (decrypt S · w)) (decrypt_encrypt S · w) c

end Sys2Proof.Machine

namespace Sys2Proof.Proofs

open Sys2Proof.Machine

/-- Settles O6: the product and both laws of two operations come down to the powers of x, and inverses are unique by the laws. -/
theorem gfMulIsMultiplicationInTheField : Obligations.GfMulIsMultiplicationInTheField := by
  refine ⟨polyMul_eq_multiple_xor_gfMul, gfMul_comm, fun a => ⟨gfMul_zero_left a, gfMul_one_left a⟩, gfMul_xor_right,
    gfMul_assoc, fun a ha => ?inverse⟩
  case inverse =>
    obtain ⟨b, hb⟩ := exists_gfMul_eq_one a ha
    exact ⟨b, hb, fun _ hb' => gfMul_eq_one_unique hb hb'⟩

/-- Settles O9: the key's bytes are the first two words, so only the zero key could expand to zero words, and it does not. -/
theorem firstRoundKeyIsTheKey : Obligations.FirstRoundKeyIsTheKey := fun S k =>
  ⟨roundKey_keyExpand_zero S k, keyExpand_ne_reset S k⟩

/-- Settles O24: the inverses from one side are shown nibble by nibble, from the other by counting. -/
theorem roundPrimitivesAreUndoneByTheirInverses : Obligations.RoundPrimitivesAreUndoneByTheirInverses :=
  ⟨fun S w => ⟨invSubN_subN S w, subN_invSubN S w⟩, sr_sr, fun w => ⟨imc_mc w, mc_imc w⟩, ark_ark,
    fun S w => ⟨sr_subN S w, sr_invSubN S w⟩⟩

/-- Settles O25: neither direction asks anything of the schedule. -/
theorem decryptAndEncryptUndoEachOther : Obligations.DecryptAndEncryptUndoEachOther := fun S k p =>
  ⟨decrypt_encrypt S p (keyExpand S k), encrypt_decrypt S p (keyExpand S k)⟩

end Sys2Proof.Proofs
end

section
/-! CBC encryption (45_chaining_modes.md R104): the chain of ciphertext words as a function of the IV and the message, what a
CBC_ENC leaves in terms of it, and the statements about CBC encryption (R104, R106, 47_host_text_interface.md R119). -/

namespace Sys2Proof.Machine

/-! ### The chain of ciphertext words -/

/-- R104: word 0 is the IV, and each word after it is `f` of a message word xor the word before. -/
def cbcChain (f : Block → Block) (iv : Block) (ms : Nat → Block) : Nat → Block
  | 0 => iv
  | j + 1 => f (ms j ^^^ cbcChain f iv ms j)

/-- A chain looks only at the message words before it. -/
theorem cbcChain_congr (f : Block → Block) (iv : Block) {ms ms' : Nat → Block} {n : Nat} (h : ∀ j, j < n → ms j = ms' j) :
    ∀ j, j ≤ n → cbcChain f iv ms j = cbcChain f iv ms' j := by
  intro j hj
  induction j with
  | zero => rfl
  | succ j ih => rw [cbcChain, cbcChain, h j hj, ih (by omega)]

/-- R119: a chain goes on from any of its words as from an IV. -/
theorem cbcChain_add (f : Block → Block) (iv : Block) (ms : Nat → Block) (m j : Nat) :
    cbcChain f iv ms (m + j) = cbcChain f (cbcChain f iv ms m) (fun i => ms (m + i)) j := by
  induction j with
  | zero => rfl
  | succ j ih => rw [← Nat.add_assoc, cbcChain, cbcChain, ih]

/-! ### What CBC_ENC leaves -/

/-- R104: the IV of a CBC_ENC, drawn (`g = 1`) or supplied. -/
def State.chainIv (s : State) (g : Bool) : Block := if g then Config.draw16 s.ivDraws else s.iv

/-- R104: the command that led from `s` to `t` took its IV, expanded the key, completed without an error, and wrote the chain of
its `n` blocks to OUT[0..n]; no other buffer word and no other field of the state changed. -/
structure State.WritesChain (s t : State) (g : Bool) (n : Nat) : Prop where
  state : t = { s with
    iv := s.chainIv g, ivDraws := if g then s.ivDraws + 1 else s.ivDraws,
    w := keyExpand sbox s.key, mem := t.mem, status := ended 0 }
  out : ∀ j, j ≤ n → t.outWord j = cbcChain (encrypt sbox · (keyExpand sbox s.key)) (s.chainIv g) s.inWord j
  frame : ∀ a, ¬ (0x200 ≤ a ∧ a ≤ 0x200 + n) → t.bufferWord a = s.bufferWord a

/-- The sequencer, started behind its IV in OUT[0], leaves the chain in OUT. -/
theorem outWord_cbcEncLoop (f : Block → Block) {n : Nat} (hn : n ≤ 255) (iv : Block) (s : State) :
    ∀ j, j ≤ n → (cbcEncLoop f n 0 iv (s.setOut 0 iv)).outWord j = cbcChain f iv s.inWord j := by
  obtain ⟨-, hout, hframe, -⟩ := cbcEncLoop_spec f n 0 iv (s.setOut 0 iv) (by omega)
  have hfirst : (cbcEncLoop f n 0 iv (s.setOut 0 iv)).outWord 0 = iv :=
    (hframe 0x200 (by omega)).trans (State.outWord_setOut_same s 0 iv)
  intro j hj
  induction j with
  | zero => exact hfirst
  | succ j ih =>
    have hprev : (if j = 0 then iv else (cbcEncLoop f n 0 iv (s.setOut 0 iv)).outWord j) = cbcChain f iv s.inWord j := by
      rw [← ih (by omega)]
      split_ifs with hj0
      · rw [hj0, hfirst]
      · rfl
    have hword := hout j (by omega)
    rw [Nat.zero_add, hprev, State.inWord_setOut s _ (by omega)] at hword
    exact hword

/-- R104: the state in which the blocks of a CBC_ENC are run: the IV taken and the key expanded. -/
def State.startChain (s : State) (g : Bool) : State :=
  { s with
    iv := s.chainIv g, ivDraws := if g then s.ivDraws + 1 else s.ivDraws, w := keyExpand sbox s.key }

theorem State.startChain_eq (s : State) (g : Bool) : s.startChain g = (if g then s.drawIv else s).expandKey := by
  cases g <;> rfl

/-- R104: once the count check passes, a CBC_ENC is the sequencer behind its IV in OUT[0], and the completion update. -/
theorem exec_cbcEnc_eq {n : BitVec 8} (hn : n ≠ 0) (g : Bool) (s : State) :
    exec (.cbcEnc g n) s = .next (cbcEncLoop (encrypt sbox · (keyExpand sbox s.key)) n.toNat 0 (s.chainIv g)
      ((s.startChain g).setOut 0 (s.chainIv g))).finish := by
  have hrun : exec (.cbcEnc g n) s = .next (cbcEncLoop (encrypt sbox · (s.startChain g).w) n.toNat 0 (s.startChain g).iv
      ((s.startChain g).setOut 0 (s.startChain g).iv)).finish := by
    rw [State.startChain_eq]
    exact if_neg (BitVec.toNat_ne.mp hn)
  exact hrun

/-- R104. -/
theorem exec_cbcEnc {n : BitVec 8} (hn : n ≠ 0) (g : Bool) (s : State) :
    ∃ t, exec (.cbcEnc g n) s = .next t ∧ s.WritesChain t g n.toNat := by
  have hlen : n.toNat ≤ 255 := by omega
  refine ⟨_, exec_cbcEnc_eq hn g s, ?_⟩
  obtain ⟨hstate, -, hframe, -⟩ := cbcEncLoop_spec (encrypt sbox · (keyExpand sbox s.key)) n.toNat 0 (s.chainIv g)
    ((s.startChain g).setOut 0 (s.chainIv g)) (by omega)
  refine { state := congrArg State.finish hstate, out := outWord_cbcEncLoop _ hlen _ _, frame := fun a ha => ?frame }
  case frame => exact (hframe a (by omega)).trans (State.bufferWord_setOut_other _ _ (by omega))

/-- R104 for a run that is given by the state it leads to. -/
theorem writesChain_of_exec {n : BitVec 8} (hn : n ≠ 0) {g : Bool} {s t : State} (h : exec (.cbcEnc g n) s = .next t) :
    s.WritesChain t g n.toNat := by
  obtain ⟨t', ht', hchain⟩ := exec_cbcEnc hn g s
  cases ht'.symm.trans h
  exact hchain

section Chain

variable {s t : State} {g : Bool} {n : Nat}

/-- R104: OUT[0] is the IV. -/
theorem State.WritesChain.out_zero (h : s.WritesChain t g n) : t.outWord 0 = s.chainIv g := h.out 0 (Nat.zero_le n)

/-- R104: each ciphertext word is the encryption of its block xor the word before. -/
theorem State.WritesChain.out_succ (h : s.WritesChain t g n) {j : Nat} (hj : j < n) :
    t.outWord (j + 1) = encrypt sbox (s.inWord j ^^^ t.outWord j) (keyExpand sbox s.key) := by
  rw [h.out (j + 1) hj, h.out j (by omega)]
  rfl

end Chain

/-- R87: under one schedule, different blocks have different ciphertexts. -/
theorem encrypt_injective (S : SBox) (w : Vector KWord 8) : Function.Injective (encrypt S · w) :=
  Function.LeftInverse.injective (g := (decrypt S · w)) (decrypt_encrypt S · w)

theorem ne_zero_of_one_le_toNat {n : BitVec 8} (hn : 1 ≤ n.toNat) : n ≠ 0 := by
  rintro rfl
  exact absurd hn (by decide)

end Sys2Proof.Machine

namespace Sys2Proof.Proofs

open Sys2Proof.Machine

/-- Settles O29: the words of format MG, and the chain of the run read off word by word. -/
theorem cbcEncChainsTheCiphertext : Obligations.CbcEncChainsTheCiphertext := by
  refine ⟨decode_cbcEnc, fun x g n hx => decode_cbcEnc_reserved hx _ n, fun s g n hn => ?run⟩
  case run =>
    obtain ⟨t, ht, hchain⟩ := exec_cbcEnc hn g s
    have hiv : t.iv = s.chainIv g := by rw [hchain.state]
    exact ⟨t, ht, hchain.state, hchain.out_zero.trans hiv.symm, fun j hj => hchain.out_succ hj, hchain.frame⟩

/-- Settles O31: decryption takes each ciphertext word back to the block xor the word before, which is the chain value that
CBC_DEC adds. -/
theorem cbcDecOfCbcEncRestoresTheMessage : Obligations.CbcDecOfCbcEncRestoresTheMessage := by
  intro s t u g n m hn hm ht hkey hin
  have henc := writesChain_of_exec (ne_zero_of_one_le_toNat hn) ht
  obtain ⟨v, hv, hdec⟩ := exec_cbcDec (n := m) (by omega) u
  refine ⟨v, hv, fun j hj => ?_⟩
  rw [hdec.out j (by omega), hin (j + 1) hj, hin j (by omega), henc.out_succ hj, hkey, decrypt_encrypt, xor_xor_cancel_right]

/-- Settles O32: encryption is injective, so two words of the chain are equal exactly when the blocks xor their chain values are,
and the blocks cancel. -/
theorem cbcRepeatsExactlyAtAFixedPoint : Obligations.CbcRepeatsExactlyAtAFixedPoint := by
  intro s t g n j hj ht hrepeat
  have henc := writesChain_of_exec (ne_zero_of_one_le_toNat (by omega)) ht
  have hword := henc.out_succ (j := j) (by omega)
  have hnext := henc.out_succ hj
  rw [hrepeat] at hnext
  calc t.outWord (j + 2) = t.outWord (j + 1)
    _ ↔ encrypt sbox (s.inWord j ^^^ t.outWord (j + 1)) (keyExpand sbox s.key) =
          encrypt sbox (s.inWord j ^^^ t.outWord j) (keyExpand sbox s.key) := by rw [← hnext, ← hword]
    _ ↔ s.inWord j ^^^ t.outWord (j + 1) = s.inWord j ^^^ t.outWord j := (encrypt_injective _ _).eq_iff
    _ ↔ t.outWord (j + 1) = t.outWord j := BitVec.xor_right_inj _

/-- Settles O33: both runs are parts of one chain, the first as far as it goes and the second from its last word on. -/
theorem cbcEncSplitsWithTheCarriedChainValue : Obligations.CbcEncSplitsWithTheCarriedChainValue := by
  intro s t u u' v v' g k m n hm hn hk ht hukey huiv hudraws huin hu' hvkey hviv hvin hv'
  have hlong := writesChain_of_exec (ne_zero_of_one_le_toNat (by omega)) ht
  have hfirst := writesChain_of_exec (ne_zero_of_one_le_toNat hm) hu'
  have hsecond := writesChain_of_exec (ne_zero_of_one_le_toNat hn) hv'
  have hiv : u.chainIv g = s.chainIv g := by rw [State.chainIv, State.chainIv, huiv, hudraws]
  have hleading : ∀ j, j ≤ m.toNat → u'.outWord j = t.outWord j := by
    intro j hj
    rw [hfirst.out j hj, hlong.out j (by omega), hukey, hiv]
    exact cbcChain_congr _ _ huin j hj
  refine ⟨hleading, fun j hj => ?rest⟩
  case rest =>
    have hcarry : v.chainIv false = t.outWord m.toNat := hviv.trans (hleading m.toNat le_rfl)
    rw [hsecond.out j hj, hlong.out (m.toNat + j) (by omega), hvkey, hcarry, hlong.out m.toNat (by omega), cbcChain_add]
    exact cbcChain_congr _ _ hvin j hj

end Sys2Proof.Proofs
end

section
/-! What a command and its completion can do (46_control.md R109 to R112, 60_exceptions.md R122 to R124): the outcome of a
command as a function of its operands, and its write set by register. -/

namespace Sys2Proof

/-- R97, R112: the outcome of a command: ALIGN where its count check fails, and no error otherwise. `exec_outcome` ties it to
`exec`. -/
def Instr.outcome : Instr → Machine.ErrCode
  | .ecbEnc n | .ecbDec n | .cbcEnc _ n => if n.toNat = 0 then .align else .none
  | .cbcDec n => if n.toNat < 2 then .align else .none
  | .nop | .gfmul _ _ | .subnib | .invsubnib | .shiftrows | .mixcol | .invmixcol | .addrk _ | .keyexp | .enc | .dec => .none

theorem Instr.outcome_eq (i : Instr) : i.outcome = .align ∨ i.outcome = .none := by
  cases i with
  | nop | gfmul | subnib | invsubnib | shiftrows | mixcol | invmixcol | addrk | keyexp | enc | dec => exact .inr rfl
  | ecbEnc | ecbDec | cbcEnc | cbcDec => exact ite_eq_or_eq _ _ _

/-! ### R111's table: what a command may write besides STATUS (`exec_writes` ties it to `exec`) -/

/-- The commands that write DOUT. -/
def Instr.writesDout : Instr → Bool
  | .gfmul _ _ | .subnib | .invsubnib | .shiftrows | .mixcol | .invmixcol | .addrk _ | .enc | .dec => true
  | .nop | .keyexp | .ecbEnc _ | .ecbDec _ | .cbcEnc _ _ | .cbcDec _ => false

/-- The commands that expand the key. -/
def Instr.writesW : Instr → Bool
  | .keyexp | .enc | .dec | .ecbEnc _ | .ecbDec _ | .cbcEnc _ _ | .cbcDec _ => true
  | .nop | .gfmul _ _ | .subnib | .invsubnib | .shiftrows | .mixcol | .invmixcol | .addrk _ => false

/-- The command that draws an IV. -/
def Instr.drawsIv : Instr → Bool
  | .cbcEnc g _ => g
  | .nop | .gfmul _ _ | .subnib | .invsubnib | .shiftrows | .mixcol | .invmixcol | .addrk _ | .keyexp | .enc | .dec
  | .ecbEnc _ | .ecbDec _ | .cbcDec _ => false

/-- The commands that write OUT: the message commands. -/
def Instr.writesOut : Instr → Bool
  | .ecbEnc _ | .ecbDec _ | .cbcEnc _ _ | .cbcDec _ => true
  | .nop | .gfmul _ _ | .subnib | .invsubnib | .shiftrows | .mixcol | .invmixcol | .addrk _ | .keyexp | .enc | .dec => false

end Sys2Proof

namespace Sys2Proof.Machine

/-! ### The outcome of a command -/

/-- R97, R109: a count check ends the command with the STATUS of the branch it takes. -/
theorem countCheck_outcome (c : Prop) [Decidable c] (s u : State) :
    ∃ t, (if c then .next (s.raiseErr .align) else .next u.finish : Host.Outcome State Fault Refusal) = .next t ∧
      t.status = Status.completed (if c then .align else .none) := by
  split_ifs <;> exact ⟨_, rfl, rfl⟩

/-- R109: every command answers a next state, with the STATUS of its outcome. -/
theorem exec_outcome (i : Instr) (s : State) : ∃ t, exec i s = .next t ∧ t.status = Status.completed i.outcome := by
  cases i with
  | nop | gfmul | subnib | invsubnib | shiftrows | mixcol | invmixcol | addrk | keyexp | enc | dec => exact ⟨_, rfl, rfl⟩
  | ecbEnc | ecbDec | cbcEnc | cbcDec => exact countCheck_outcome _ s _

/-- R97, R109, R123: the outcome of a completion, read off the command word. `State.complete_outcome` ties it to the model. -/
def wordOutcome (w : Block) : ErrCode :=
  match decode w with
  | .ok i => i.outcome
  | .error _ => .illegal

/-- R109, R123: every completion answers a next state, with the STATUS of its word's outcome. -/
theorem State.complete_outcome (s : State) :
    ∃ t, s.complete = .next t ∧ t.status = Status.completed (wordOutcome s.cmd) := by
  unfold wordOutcome
  cases hd : decode s.cmd with
  | error e => exact ⟨_, State.complete_error hd, rfl⟩
  | ok i =>
    rw [State.complete_ok hd]
    exact exec_outcome i s

/-- Everything a completion can do: ILLEGAL or ALIGN raised on the state it started from, or a run of the command to its
completion update. -/
theorem State.complete_cases {s t : State} (h : s.complete = .next t) :
    t = s.raiseErr .illegal ∨ t = s.raiseErr .align ∨ ∃ u : State, t = u.finish := by
  cases hd : decode s.cmd with
  | error e =>
    cases (State.complete_error hd).symm.trans h
    exact .inl rfl
  | ok i =>
    rw [State.complete_ok hd] at h
    obtain halign | ⟨u, hfinish⟩ := exec_align_or_finish i s
    · cases halign.symm.trans h
      exact .inr (.inl rfl)
    · cases hfinish.symm.trans h
      exact .inr (.inr ⟨u, rfl⟩)

/-! ### The write set of a command -/

/-- R111: from `s` to `t`, nothing changed but STATUS and what the table lists for `i`, and no buffer word outside OUT. -/
structure State.WritesOnly (i : Instr) (s t : State) : Prop where
  state : t = { s with
    dout := t.dout, w := t.w, iv := t.iv, ivDraws := t.ivDraws, mem := t.mem, status := t.status }
  dout : i.writesDout = false → t.dout = s.dout
  w : i.writesW = false → t.w = s.w
  iv : i.drawsIv = false → t.iv = s.iv ∧ t.ivDraws = s.ivDraws
  mem : i.writesOut = false → t.mem = s.mem
  window : ∀ a, ¬ (0x200 ≤ a ∧ a < 0x300) → t.bufferWord a = s.bufferWord a

/-- R122: a STATUS write is in every command's write set. -/
theorem State.writesOnly_status (i : Instr) (s : State) (st : Status) : State.WritesOnly i s { s with status := st } :=
  ⟨rfl, fun _ => rfl, fun _ => rfl, fun _ => ⟨rfl, rfl⟩, fun _ => rfl, fun _ _ => rfl⟩

/-- R98, R99: W and a part of OUT are in the write set of every message command. -/
theorem State.WritesMessage.writesOnly {s t : State} {count : Nat} {word : Nat → Block} (h : s.WritesMessage t count word)
    (hcount : count ≤ 256) {i : Instr} (hw : i.writesW = true) (hout : i.writesOut = true) : State.WritesOnly i s t where
  state := by rw [h.state]
  dout _ := by rw [h.state]
  w hno := by simp [hw] at hno
  iv _ := by rw [h.state]; exact ⟨rfl, rfl⟩
  mem hno := by simp [hout] at hno
  window a ha := h.frame a (by omega)

/-- R104: so are they for CBC_ENC, and IV too when one is drawn. -/
theorem State.WritesChain.writesOnly {s t : State} {g : Bool} {n : BitVec 8} (h : s.WritesChain t g n.toNat) :
    State.WritesOnly (.cbcEnc g n) s t where
  state := by rw [h.state]
  dout _ := by rw [h.state]
  w := nofun
  iv hg := by
    obtain rfl : g = false := hg
    rw [h.state]
    exact ⟨rfl, rfl⟩
  mem := nofun
  window a ha := h.frame a (by omega)

/-- R111: every command keeps to its write set. -/
theorem exec_writes {i : Instr} {s t : State} (h : exec i s = .next t) : State.WritesOnly i s t := by
  cases i with
  | nop =>
    cases h
    exact s.writesOnly_status _ _
  | gfmul | subnib | invsubnib | shiftrows | mixcol | invmixcol | addrk =>
    cases h
    exact ⟨rfl, nofun, fun _ => rfl, fun _ => ⟨rfl, rfl⟩, fun _ => rfl, fun _ _ => rfl⟩
  | keyexp =>
    cases h
    exact ⟨rfl, fun _ => rfl, nofun, fun _ => ⟨rfl, rfl⟩, fun _ => rfl, fun _ _ => rfl⟩
  | enc | dec =>
    cases h
    exact ⟨rfl, nofun, nofun, fun _ => ⟨rfl, rfl⟩, fun _ => rfl, fun _ _ => rfl⟩
  | ecbEnc n =>
    by_cases hn : n = 0
    · subst hn
      cases (exec_ecbEnc_zero s).symm.trans h
      exact s.writesOnly_status _ _
    · obtain ⟨t', ht', hmessage⟩ := exec_ecbEnc hn s
      cases ht'.symm.trans h
      exact hmessage.writesOnly (by omega) rfl rfl
  | ecbDec n =>
    by_cases hn : n = 0
    · subst hn
      cases (exec_ecbDec_zero s).symm.trans h
      exact s.writesOnly_status _ _
    · obtain ⟨t', ht', hmessage⟩ := exec_ecbDec hn s
      cases ht'.symm.trans h
      exact hmessage.writesOnly (by omega) rfl rfl
  | cbcEnc g n =>
    by_cases hn : n = 0
    · subst hn
      cases (exec_cbcEnc_zero g s).symm.trans h
      exact s.writesOnly_status _ _
    · exact (writesChain_of_exec hn h).writesOnly
  | cbcDec n =>
    by_cases hn : n < 2
    · cases (exec_cbcDec_of_lt_two hn s).symm.trans h
      exact s.writesOnly_status _ _
    · obtain ⟨t', ht', hmessage⟩ := exec_cbcDec (n := n) (by bv_omega) s
      cases ht'.symm.trans h
      exact hmessage.writesOnly (by omega) rfl rfl

end Sys2Proof.Machine

namespace Sys2Proof.Proofs

open Sys2Proof.Machine

/-- Settles O38: an error is raised on the state that the completion started from, and a run to the completion update has
none. -/
theorem errorsWriteOnlyStatus : Obligations.ErrorsWriteOnlyStatus := by
  intro s t h herr
  obtain rfl | rfl | ⟨u, rfl⟩ := State.complete_cases h
  · exact ⟨rfl, .inr rfl⟩
  · exact ⟨rfl, .inl rfl⟩
  · exact absurd rfl herr

/-- Settles O39: the outcome is read off the decoded word. -/
theorem outcomeDependsOnTheCommandWordAlone : Obligations.OutcomeDependsOnTheCommandWordAlone := by
  intro s s' t t' hcmd ht ht'
  obtain ⟨u, hu, hstatus⟩ := s.complete_outcome
  obtain ⟨u', hu', hstatus'⟩ := s'.complete_outcome
  cases hu.symm.trans ht
  cases hu'.symm.trans ht'
  rw [hstatus, hstatus', hcmd]

/-- Settles O40: each clause asks for a register that the table does not list for its commands. -/
theorem commandsWriteOnlyTheirRegisters : Obligations.CommandsWriteOnlyTheirRegisters := by
  intro i s t h
  obtain ⟨hstate, hdout, hw, hiv, hmem, hwindow⟩ := exec_writes h
  refine ⟨?kept, hwindow, fun hi => hdout ?dout, fun hi => hw ?w, fun hi => hiv ?iv, fun hee hed hce hcd a => ?buffers⟩
  case kept =>
    rw [hstate]
    exact ⟨rfl, rfl, rfl, rfl, rfl, rfl, rfl⟩
  case dout =>
    have hlist : ∀ i ∈ [Instr.nop, .keyexp], i.writesDout = false := by decide
    obtain hi | ⟨n, rfl⟩ | ⟨n, rfl⟩ | ⟨g, n, rfl⟩ | ⟨n, rfl⟩ := hi
    · exact hlist i hi
    all_goals rfl
  case w =>
    have hlist : ∀ i ∈ [Instr.nop, .subnib, .invsubnib, .shiftrows, .mixcol, .invmixcol], i.writesW = false := by decide
    obtain hi | ⟨a, b, rfl⟩ | ⟨r, rfl⟩ := hi
    · exact hlist i hi
    all_goals rfl
  case iv =>
    cases i with
    | cbcEnc g n =>
      cases g with
      | false => rfl
      | true => exact absurd rfl (hi n)
    | _ => rfl
  case buffers =>
    have hresets : t.resets = s.resets := by rw [hstate]
    refine State.bufferWord_congr (hmem ?_) hresets a
    cases i with
    | ecbEnc n => exact absurd rfl (hee n)
    | ecbDec n => exact absurd rfl (hed n)
    | cbcEnc g n => exact absurd rfl (hce g n)
    | cbcDec n => exact absurd rfl (hcd n)
    | _ => rfl

end Sys2Proof.Proofs
end

section
/-! What a step can do (20_memory.md R44, 46_control.md R109, R110): the completion of a pending command or one host event, the
bound on how long a command stays pending, and the invariant of 10_state.md R19 and 20_memory.md R40 kept by every step. -/

namespace Sys2Proof.Machine

/-! ### Which agent moves -/

/-- A pending command completes at once when the open latency puts the completion first. -/
theorem step_of_completesFirst {s : State} (hb : s.status.busy = true) (hc : Config.completesFirst s.busEvents = true) :
    step s = s.complete := by
  have hg : s.nextAgent = .completion := by simp [State.nextAgent, hb, hc]
  unfold step
  rw [hg]

/-- R109, R110: nothing stands before the completion of a pending command when the host is idle or waits for it, or the latency
puts it first. -/
theorem step_eq_complete {s : State} (hb : s.status.busy = true)
    (hfirst : s.host = [] ∨ (∃ rest, s.host = .wait :: rest) ∨ Config.completesFirst s.busEvents = true) :
    step s = s.complete := by
  obtain hnil | ⟨rest, hwait⟩ | hlatency := hfirst
  · exact step_pending hb (by rw [hnil]; rfl)
  · exact step_pending hb (by rw [hwait]; rfl)
  · exact step_of_completesFirst hb hlatency

/-- With an event ahead, a step completes the pending command or serves that event. -/
theorem step_of_host_cons {s : State} {e : HostEvent} {rest : List HostEvent} (h : s.host = e :: rest) :
    (s.status.busy = true ∧ step s = s.complete) ∨
      step s = .next { s.access e with host := rest, busEvents := s.busEvents + 1 } := by
  obtain ⟨-, hb, hstep⟩ | ⟨-, -, hstep⟩ | ⟨-, -, hnil, -⟩ := step_cases s
  · exact .inl ⟨hb, hstep⟩
  · exact .inr (hstep.trans (congrArg _ (State.serveHost_cons h)))
  · rw [h] at hnil
    cases hnil

/-! ### How long a command stays pending -/

/-- R139, R136: while BUSY = 1 no host event but a reset changes STATUS. -/
theorem State.access_status_of_busy {s : State} (hb : s.status.busy = true) {e : HostEvent} (he : e ≠ .reset) :
    (s.access e).status = s.status := by
  cases e with
  | write a v => rw [State.access, State.busWrite_of_busy hb]
  | writeNoted a k =>
    rw [State.access]
    cases s.noted[k]? with
    | none => rfl
    | some note => exact congrArg State.status (State.busWrite_of_busy hb a note.2)
  | read a => rfl
  | wait => rfl
  | reset => exact absurd rfl he

/-- A completion is among the next `bound` steps: after `k` of them BUSY = 0 and DONE = 1. -/
def State.CompletesWithin (s : State) (bound : Nat) : Prop :=
  ∃ k t, k ≤ bound ∧ Sys2Proof.core.run k s = .next t ∧ t.status.busy = false ∧ t.status.done = true

theorem State.completesWithin_of_step_eq_complete {s : State} (h : step s = s.complete) (n : Nat) :
    s.CompletesWithin (n + 1) := by
  obtain ⟨t, ht, hstatus⟩ := s.complete_outcome
  refine ⟨1, t, by omega, (core_run_succ 0 (h.trans ht)).trans (core_run_zero t), ?_⟩
  rw [hstatus]
  exact ⟨rfl, rfl⟩

theorem State.CompletesWithin.of_step {s t : State} {n : Nat} (h : t.CompletesWithin n) (hstep : step s = .next t) :
    s.CompletesWithin (n + 1) := by
  obtain ⟨k, u, hk, hrun, hends⟩ := h
  exact ⟨k + 1, u, by omega, (core_run_succ k hstep).trans hrun, hends⟩

/-- R110: each step that does not complete the command uses up one host event, and none of those ahead is a reset. -/
theorem State.completesWithin_of_busy (events : List HostEvent) (hreset : ∀ e ∈ events, e ≠ .reset) {s : State}
    (hhost : s.host = events) (hb : s.status.busy = true) : s.CompletesWithin (events.length + 1) := by
  induction events generalizing s with
  | nil => exact s.completesWithin_of_step_eq_complete (step_eq_complete hb (.inl hhost)) _
  | cons e rest ih =>
    rw [List.forall_mem_cons] at hreset
    obtain ⟨he, hrest⟩ := hreset
    obtain ⟨-, hcomplete⟩ | hserve := step_of_host_cons hhost
    · exact s.completesWithin_of_step_eq_complete hcomplete _
    · refine (ih hrest rfl ?_).of_step hserve
      exact (congrArg Status.busy (State.access_status_of_busy hb he)).trans hb

/-! ### The invariant -/

theorem State.inv_iff (s : State) : s.Inv = true ↔ s.status.legal = true ∧ s.mem.wf = true := Bool.and_eq_true_iff

theorem Status.legal_pending : Status.pending.legal = true := by decide

theorem wf_ecbLoop (f : Block → Block) (n : BitVec 8) {s : State} (hm : s.mem.wf = true) :
    (ecbLoop f n.toNat 0 s).mem.wf = true := by
  obtain ⟨-, -, -, hwf⟩ := ecbLoop_spec f n.toNat 0 s (by omega)
  exact hwf hm

theorem wf_cbcDecLoop (f : Block → Block) (n : BitVec 8) (prev : Block) {s : State} (hm : s.mem.wf = true) :
    (cbcDecLoop f (n.toNat - 1) 0 prev s).mem.wf = true := by
  obtain ⟨-, -, -, hwf⟩ := cbcDecLoop_spec f (n.toNat - 1) 0 prev s (by omega)
  exact hwf hm

theorem wf_cbcEncLoop (f : Block → Block) (n : BitVec 8) (prev : Block) {s : State} (hm : s.mem.wf = true) :
    (cbcEncLoop f n.toNat 0 prev (s.setOut 0 prev)).mem.wf = true := by
  obtain ⟨-, -, -, hwf⟩ := cbcEncLoop_spec f n.toNat 0 prev (s.setOut 0 prev) (by omega)
  exact hwf (Memory.wf_set prev hm (by omega) (by omega))

/-- A count check keeps the canonical form when the run behind it does. -/
theorem countCheck_keeps_wf {c : Prop} [Decidable c] {s u t : State}
    (h : (if c then .next (s.raiseErr .align) else .next u.finish : Host.Outcome State Fault Refusal) = .next t)
    (hs : s.mem.wf = true) (hu : u.mem.wf = true) : t.mem.wf = true := by
  split_ifs at h
  · cases h
    exact hs
  · cases h
    exact hu

/-- R40: a command writes memory inside the OUT window only, and keeps it canonical. -/
theorem exec_keeps_wf {i : Instr} {s t : State} (h : exec i s = .next t) (hm : s.mem.wf = true) : t.mem.wf = true := by
  cases i with
  | ecbEnc n | ecbDec n => exact countCheck_keeps_wf h hm (wf_ecbLoop _ n hm)
  | cbcDec n => exact countCheck_keeps_wf h hm (wf_cbcDecLoop _ n _ hm)
  | cbcEnc g n =>
    have hstart : (if g then s.drawIv else s).expandKey.mem.wf = true := by rwa [← State.startChain_eq]
    exact countCheck_keeps_wf h hm (wf_cbcEncLoop _ n _ hstart)
  | nop | gfmul | subnib | invsubnib | shiftrows | mixcol | invmixcol | addrk | keyexp | enc | dec =>
    rwa [(exec_writes h).mem rfl]

/-- R109, R122: a completion ends with a legal STATUS, and an error leaves the memory alone. -/
theorem State.complete_keeps_inv {s t : State} (h : s.complete = .next t) (hs : s.Inv = true) : t.Inv = true := by
  obtain ⟨-, hm⟩ := s.inv_iff.mp hs
  rw [State.inv_iff]
  cases hd : decode s.cmd with
  | error e =>
    cases (State.complete_error hd).symm.trans h
    exact ⟨rfl, hm⟩
  | ok i =>
    rw [State.complete_ok hd] at h
    obtain ⟨t', ht', hstatus⟩ := exec_outcome i s
    cases ht'.symm.trans h
    refine ⟨?_, exec_keeps_wf h hm⟩
    rw [hstatus]
    obtain ho | ho := i.outcome_eq <;> rw [ho] <;> rfl

/-- R38: a host write issues, or stores one word: a register, or an IN word inside its window. -/
theorem State.busWrite_keeps_inv {s : State} (hs : s.Inv = true) (a : BusAddr) (v : Block) : (s.busWrite a v).Inv = true := by
  obtain ⟨hstatus, hm⟩ := s.inv_iff.mp hs
  rw [State.inv_iff]
  obtain hignored | ⟨-, hissue | hkey | hiv | hdin | ⟨i, hin⟩⟩ := s.busWrite_cases a v
  · rw [hignored]
    exact ⟨hstatus, hm⟩
  · rw [hissue]
    exact ⟨Status.legal_pending, hm⟩
  · rw [hkey]
    exact ⟨hstatus, hm⟩
  · rw [hiv]
    exact ⟨hstatus, hm⟩
  · rw [hdin]
    exact ⟨hstatus, hm⟩
  · rw [hin]
    exact ⟨hstatus, Memory.wf_set v hm (by omega) (by omega)⟩

theorem State.access_keeps_inv {s : State} (hs : s.Inv = true) (e : HostEvent) : (s.access e).Inv = true := by
  cases e with
  | write a v => exact State.busWrite_keeps_inv hs a v
  | writeNoted a k =>
    rw [State.access]
    cases s.noted[k]? with
    | none => exact hs
    | some note => exact State.busWrite_keeps_inv hs a note.2
  | read a => exact hs
  | wait => exact hs
  | reset => exact s.afterReset.inv_iff.mpr ⟨rfl, rfl⟩

theorem State.serveHost_keeps_inv {s : State} (hs : s.Inv = true) : s.serveHost.Inv = true := by
  cases h : s.host with
  | nil => rwa [State.serveHost_nil h]
  | cons e rest =>
    rw [State.serveHost_cons h]
    exact State.access_keeps_inv hs e

end Sys2Proof.Machine

namespace Sys2Proof.Proofs

open Sys2Proof.Machine

/-- Settles O53: of the two agents, the core completes a command and the host has one event served; each keeps the invariant. -/
theorem stepKeepsTheStateSound : Obligations.StepKeepsTheStateSound := by
  intro s t hs h
  obtain ⟨-, -, hstep⟩ | ⟨-, -, hstep⟩ | ⟨-, -, -, hstep⟩ := step_cases s
  · exact State.complete_keeps_inv (hstep.symm.trans h) hs
  · cases hstep.symm.trans h
    exact State.serveHost_keeps_inv hs
  · cases hstep.symm.trans h
    exact hs

/-- Settles O54: after reset, and with a word placed, STATUS is legal and no buffer word is written. -/
theorem resetIsSound : Obligations.ResetIsSound :=
  ⟨(State.inv_iff _).mpr ⟨rfl, State.reset_mem_wf⟩,
    fun _ _ => (State.inv_iff _).mpr ⟨Status.legal_pending, State.reset_mem_wf⟩⟩

/-- Settles O36: the outcome of a command is ALIGN or no error; a step completes a command, serves the host, or stays. -/
theorem everyCommandCompletesAndNoStepStops : Obligations.EveryCommandCompletesAndNoStepStops := by
  refine ⟨fun i s => ?exec, fun s => ?step⟩
  case exec =>
    obtain ⟨t, ht, hstatus⟩ := exec_outcome i s
    refine ⟨t, ht, ?_⟩
    rw [hstatus]
    obtain ho | ho := i.outcome_eq
    · exact .inr (congrArg Status.completed ho)
    · exact .inl (congrArg Status.completed ho)
  case step =>
    obtain ⟨-, -, hstep⟩ | ⟨-, -, hstep⟩ | ⟨-, -, -, hstep⟩ := step_cases s
    · obtain ⟨t, ht, -⟩ := s.complete_outcome
      exact ⟨t, hstep.trans ht⟩
    · exact ⟨_, hstep⟩
    · exact ⟨_, hstep⟩

/-- Settles O37: the command stays pending over at most all the host's events. -/
theorem pendingCommandCompletesWithinBound : Obligations.PendingCommandCompletesWithinBound := by
  intro s hb hreset
  refine State.completesWithin_of_busy s.host (fun e he => ?_) rfl hb
  exact of_decide_eq_true (List.all_eq_true.mp hreset e he)

/-- Settles O34: nothing comes before the completion in these cases, and a completion is `exec` of the decoded word. -/
theorem stepRunsTheDecodedCommand : Obligations.StepRunsTheDecodedCommand :=
  ⟨fun _ _ hb hfirst hd => (step_eq_complete hb hfirst).trans (State.complete_ok hd),
    fun _ _ hb hfirst hd => (step_eq_complete hb hfirst).trans (State.complete_error hd)⟩

/-- Settles O35: an idle core has nothing to complete, so with an event ahead it serves it. -/
theorem stepServesTheHostOrCompletes : Obligations.StepServesTheHostOrCompletes := by
  refine ⟨fun s hidle hnil => ?idle, fun s e rest hidle hhost => ?serve, fun s e rest _ hhost => ?pending⟩
  case idle =>
    obtain ⟨-, hb, -⟩ | ⟨-, ⟨e, rest, hhost⟩, -⟩ | ⟨-, -, -, hstep⟩ := step_cases s
    · simp [hb] at hidle
    · simp [hhost] at hnil
    · exact hstep
  case serve =>
    obtain ⟨hb, -⟩ | hstep := step_of_host_cons hhost
    · simp [hb] at hidle
    · exact hstep
  case pending => exact (step_of_host_cons hhost).imp_left And.right

end Sys2Proof.Proofs
end

section
/-! The host's side of a command (20_memory.md R39, 10_state.md R26, 70_reset_and_hazards.md R140, R142): reads that change
nothing, what they return while BUSY = 1, and the writes of IN and KEY. -/

namespace Sys2Proof.Machine

/-- R19: of the legal STATUS values only the one after an issue has BUSY = 1. -/
theorem Status.eq_pending_of_legal {st : Status} (hlegal : st.legal = true) (hb : st.busy = true) : st = Status.pending := by
  simp only [Status.legal, Bool.or_eq_true, beq_iff_eq] at hlegal
  obtain (((rfl | rfl) | rfl) | rfl) | rfl := hlegal
  · cases hb
  · rfl
  · cases hb
  · cases hb
  · cases hb

/-- R140: while BUSY = 1 an unsettled location reads the free value of this read. -/
theorem State.busRead_of_unsettled {s : State} (hb : s.status.busy = true) {a : BusAddr} (ha : (locate a).unsettled = true) :
    s.busRead a = Config.busyRead s.busEvents := by
  simp [State.busRead, hb, ha]

/-- R140: IV, DOUT, W, RK and OUT are the unsettled locations. -/
theorem locate_unsettled {a : BusAddr} (ha : a = 0x003 ∨ a = 0x005 ∨ (0x008 ≤ a.toNat ∧ a.toNat < 0x014) ∨
    (0x200 ≤ a.toNat ∧ a.toNat < 0x300)) : (locate a).unsettled = true := by
  obtain rfl | rfl | hkeys | hout := ha
  · rfl
  · rfl
  · by_cases hw : a.toNat < 0x010
    · rw [locate_keyWord (i := a.toNat - 0x008) (by omega) (by omega)]
      rfl
    · rw [locate_roundKey (r := a.toNat - 0x010) (by omega) (by omega)]
      rfl
  · rw [locate_outBuf (i := a.toNat - 0x200) (by omega) (by omega)]
    rfl

/-- R39: a served read leaves what every location holds. -/
theorem State.stored_serveHost_read {s : State} {a : BusAddr} {rest : List HostEvent} (h : s.host = .read a :: rest)
    (l : Location) : s.serveHost.stored l = s.stored l := by
  rw [State.serveHost_cons h]
  cases l <;> rfl

end Sys2Proof.Machine

namespace Sys2Proof.Proofs

open Sys2Proof.Machine

/-- Settles O43: the write is the store of one word, read back at its own address and absent from every other. -/
theorem inWordsReadBackWhatTheHostWrote : Obligations.InWordsReadBackWhatTheHostWrote := by
  intro s a v hidle hlow hhigh
  obtain ⟨i, hi, ha⟩ : ∃ i, i < 256 ∧ a.toNat = 0x100 + i := ⟨a.toNat - 0x100, by omega, by omega⟩
  rw [State.busWrite_inBuf hidle hi ha v, State.busRead_inBuf _ hi ha]
  exact ⟨rfl, s.inWord_setIn_same i v, fun b hb => s.bufferWord_setIn_other v (ha ▸ hb)⟩

/-- Settles O47: soundness leaves one value for a STATUS with BUSY = 1, and the other reads go by their locations. -/
theorem readsWhileBusy : Obligations.ReadsWhileBusy := by
  intro s hs hb
  obtain ⟨hlegal, -⟩ := s.inv_iff.mp hs
  refine ⟨?status, s.busRead_cmd, s.busRead_key, s.busRead_din, fun a i hi ha => s.busRead_inBuf hi ha,
    fun a ha => State.busRead_of_unsettled hb (locate_unsettled ha)⟩
  case status =>
    rw [State.busRead_status, Status.eq_pending_of_legal hlegal hb]
    rfl

/-- Settles O48: a served read adds a note and counts one event; no location holds another value after it. -/
theorem readsHaveNoSideEffect : Obligations.ReadsHaveNoSideEffect := by
  intro s a rest h
  have hserve := State.serveHost_cons h
  refine ⟨hserve, fun b hb => ?again⟩
  case again =>
    obtain hidle | hsettled := hb
    · have hidle' : s.serveHost.status.busy = false := by rw [hserve]; exact hidle
      rw [State.busRead_of_idle hidle', State.busRead_of_idle hidle, State.stored_serveHost_read h]
    · rw [State.busRead_of_settled _ hsettled, State.busRead_of_settled _ hsettled, State.stored_serveHost_read h]

/-- Settles O52: the write is to KEY alone, so ADDRK finds the old W and ENC expands what it finds in KEY. -/
theorem keyWriteLeavesTheRoundKeys : Obligations.KeyWriteLeavesTheRoundKeys := by
  intro s v r hidle
  rw [State.busWrite_key hidle]
  exact ⟨rfl, exec_addrk r _, exec_enc _⟩

end Sys2Proof.Proofs
end

section
/-! Hex text (47_host_text_interface.md R114): a digit and its value stand for each other, and so do a block and its text. -/

namespace Sys2Proof.Machine

/-- R114: the digit of a nibble has that nibble as its value. -/
@[simp] theorem hexValue?_hexDigit : ∀ v : Nibble, hexValue? (hexDigit v) = some v := by decide

/-- R114: the digit of a character's value is the character in upper case: a decimal digit is its own, and the letters A to F
and a to f have the digits A to F. -/
theorem hexDigit_of_hexValue? {c : Char} {v : Nibble} (h : hexValue? c = some v) : hexDigit v = c.toUpper := by
  have hdecimal : ∀ n < 10, hexDigit (BitVec.ofNat 4 n) = (Char.ofNat (n + 0x30)).toUpper := by decide
  have hupper : ∀ n < 6, hexDigit (BitVec.ofNat 4 (n + 10)) = (Char.ofNat (n + 0x41)).toUpper := by decide
  have hlower : ∀ n < 6, hexDigit (BitVec.ofNat 4 (n + 10)) = (Char.ofNat (n + 0x61)).toUpper := by decide
  have hchar {k : Nat} (hk : k ≤ c.toNat) : Char.ofNat (c.toNat - k + k) = c := by
    rw [Nat.sub_add_cancel hk, Char.ofNat_toNat]
  simp only [hexValue?] at h
  split_ifs at h with hd hu hl <;> cases h
  · rw [hdecimal _ (by omega), hchar hd.1]
  · rw [hupper _ (by omega), hchar hu.1]
  · rw [hlower _ (by omega), hchar hl.1]

/-- R114: a text that stands for a block is four hex characters, character `j` being nibble `j` of the block. -/
theorem parseBlock_eq_some_iff (t : Text) (w : Block) : parseBlock t = some w ↔
    ∃ a b c d, t = [a, b, c, d] ∧ hexValue? a = some (nib0 w) ∧ hexValue? b = some (nib1 w) ∧
      hexValue? c = some (nib2 w) ∧ hexValue? d = some (nib3 w) := by
  constructor
  · intro h
    match t, h with
    | [a, b, c, d], h =>
      simp only [parseBlock, Option.bind_eq_bind, Option.bind_eq_some_iff, Option.pure_def, Option.some.injEq] at h
      obtain ⟨n0, h0, n1, h1, n2, h2, n3, h3, rfl⟩ := h
      refine ⟨a, b, c, d, rfl, ?_⟩
      rw [nib0_append, nib1_append, nib2_append, nib3_append]
      exact ⟨h0, h1, h2, h3⟩
  · rintro ⟨a, b, c, d, rfl, h0, h1, h2, h3⟩
    simp only [parseBlock, h0, h1, h2, h3, Option.bind_eq_bind, Option.bind_some, Option.pure_def]
    rw [← block_eq_append_nibbles]

/-- R114: the text of a block is the digits of its nibbles. -/
theorem blockText_eq (w : Block) : blockText w = [hexDigit (nib0 w), hexDigit (nib1 w), hexDigit (nib2 w), hexDigit (nib3 w)] :=
  rfl

end Sys2Proof.Machine

namespace Sys2Proof.Proofs

open Sys2Proof.Machine

/-- Settles O55: a text and its block go character by character, and the digit of a character's value is its upper case. -/
theorem blockTextRoundTrips : Obligations.BlockTextRoundTrips := by
  refine ⟨fun w => ⟨rfl, ?parse⟩, fun t w h => ?upper⟩
  case parse =>
    rw [parseBlock_eq_some_iff]
    exact ⟨_, _, _, _, blockText_eq w, hexValue?_hexDigit _, hexValue?_hexDigit _, hexValue?_hexDigit _, hexValue?_hexDigit _⟩
  case upper =>
    obtain ⟨a, b, c, d, rfl, h0, h1, h2, h3⟩ := (parseBlock_eq_some_iff t w).mp h
    rw [blockText_eq, hexDigit_of_hexValue? h0, hexDigit_of_hexValue? h1, hexDigit_of_hexValue? h2, hexDigit_of_hexValue? h3]
    rfl

end Sys2Proof.Proofs
end
